-- ==== Sys2Proof/Word.lean ====
section
/-! DEFINITION. The words of the block: 64-bit operands and results (R9 XLEN, R11), the 194-bit command word
(R60) and the 66-bit response word (R65). All are unsigned (R11). -/

namespace Sys2Proof

/-- An operand, a result or a word of the witness ROM: an unsigned number of width 64 (R9, R11). -/
abbrev Word := BitVec 64

/-- The command word `CMD`: op, a, b, m side by side (R60). -/
abbrev Cmd := BitVec 194

/-- The response word `RSP`: status and result side by side (R65). -/
abbrev Rsp := BitVec 66

end Sys2Proof
end

