-- ==== Sys2Proof/Machine/Work.lean ====
section
/-! DEFINITION. The working registers of the three units and the sequencer (10_state.md R26). No port shows them;
they are dead outside BUSY. -/

namespace Sys2Proof.Machine

/-- Who started the exponentiator ME (R123): the command POWMOD, or PT for one witness. -/
inductive MeCaller
  | command
  | tester
  deriving DecidableEq, Repr, Inhabited

/-- Who started the multiplier MM (R123): the command MULMOD, ME for its multiply or its squaring (with ME's own
caller, so the nesting is never deeper than PT over ME over MM), or PT for a squaring. -/
inductive MmCaller
  | command
  | multiply (c : MeCaller)
  | square (c : MeCaller)
  | tester
  deriving DecidableEq, Repr, Inhabited

/-- The sequencer: which step of which algorithm is running (R26, R123). Its encoding is not fixed by the spec;
the positions are named after the steps of the pseudocode. DESIGN CHOICE (log 7), not observable. -/
inductive Seq
  /-- The command has been accepted; the unit is chosen by `op` (R70). -/
  | start
  /-- MM: the operands are reduced, the path is chosen (R83, R84, R86). -/
  | mmSelect (c : MmCaller)
  /-- MM: the double-and-add loop (R84). -/
  | mmLoop (c : MmCaller)
  /-- ME: the square-and-multiply loop (R101). -/
  | meLoop (c : MeCaller)
  /-- PT step 1 (R111). -/
  | ptTrivial
  /-- PT step 2, with the trial primes still to be tried (R112). -/
  | ptTrial (left : List Word)
  /-- PT step 3 (R113). -/
  | ptFloor
  /-- PT step 4: `PT_WA` is the address of row `k` (R114). -/
  | ptSearch (k : Nat)
  /-- PT step 4: `PT_WA` moves past the witnesses of row `k` to the word after its sentinel (R114). -/
  | ptSkip (k : Nat)
  /-- PT step 5: trailing zero bits are shifted out of `PT_D` (R116). -/
  | ptDecompose
  /-- PT step 6: the next witness is read at `PT_WA` (R117). -/
  | ptWitness
  /-- PT step 6 (ii): `PT_X` is the power just computed (R117). -/
  | ptFirst
  /-- PT step 6 (iii): one more squaring, if any is left (R117). -/
  | ptSquare
  /-- PT step 6 (iii): `PT_X` is the square just computed (R117). -/
  | ptNext
  /-- The work is finished: the status and result that COMPLETE answers (R28). -/
  | done (status : BitVec 2) (result : Word)
  /-- A word outside the witness ROM was asked for, which the rules never do (R43, U10). -/
  | noWord
  deriving DecidableEq, Repr, Inhabited

/-- The working registers (table of R26), each under the spec's own name. -/
structure Work where
  mmA : Word
  mmB : Word
  mmM : Word
  mmR : Word
  meB : Word
  meE : Word
  meR : Word
  meM : Word
  ptD : Word
  ptS : BitVec 7
  ptX : Word
  /-- A word address of the witness ROM, whose width the table fixes, or one past its last word after a row search that
found no row (R26, R114). DESIGN CHOICE (log 13): a natural number. -/
  ptWA : Nat
  ptRC : BitVec 7
  seq : Seq
  deriving DecidableEq, Repr, Inhabited

/-- The working registers of the model's initial state. The spec gives no value (R26, R33).
DESIGN CHOICE (log 2), unsafe: all zero, sequencer at `start`. -/
def Work.zero : Work :=
  { mmA := 0, mmB := 0, mmM := 0, mmR := 0, meB := 0, meE := 0, meR := 0, meM := 0,
    ptD := 0, ptS := 0, ptX := 0, ptWA := 0, ptRC := 0, seq := .start }

end Sys2Proof.Machine
end

