-- ==== Sys2Proof/Config.lean ====
section
/-! DEFINITION. What an implementation fixes (the parameters of 00_scope.md R9 that are arguments) and the free
values. The values of the fixed constants of R9 and the default parameters stand in Machine/Constants.lean. -/

namespace Sys2Proof

/-- One row of `WITNESS_TABLE` (R41): the row serves every `p` below `bound`. The bound may be 2^64 itself, so it
is a natural number and not a word. -/
structure WitnessRow where
  bound : Nat
  witnesses : List Word
  deriving DecidableEq, Repr, Inhabited

/-- The two parameters the spec leaves as arguments (R9, U11, U12). -/
structure Params where
  /-- `HAS_WIDE_MUL` (R86). -/
  hasWideMul : Bool
  /-- `WITNESS_TABLE` (R41). -/
  witnessTable : List WitnessRow
  deriving DecidableEq, Repr, Inhabited

/-! The free values. Each is a constant without a body, applied to the number of values drawn before, so that a
claim holds whatever it is. -/

/-- Counts the outside draws when `supply` is used up: the latency of a command (R28, U5) and how far the working
registers move at an edge (R26). Log 4, log 6. -/
opaque Config.freeCount : Nat → Nat

/-- `OP` after a reset edge (R33, U7). Log 3. -/
opaque Config.freeOp : Nat → BitVec 2
/-- `A` after a reset edge (R33, U7). Log 3. -/
opaque Config.freeA : Nat → Word
/-- `B` after a reset edge (R33, U7). Log 3. -/
opaque Config.freeB : Nat → Word
/-- `M` after a reset edge (R33, U7). Log 3. -/
opaque Config.freeM : Nat → Word
/-- `RSP_STATUS` after a reset edge (R33, U7). Log 3. -/
opaque Config.freeStatus : Nat → BitVec 2
/-- `RSP_RESULT` after a reset edge (R33, U7). Log 3. -/
opaque Config.freeResult : Nat → Word
/-- The working registers and the sequencer after a reset edge (R33, U7). Log 3. -/
opaque Config.freeWork : Nat → Machine.Work

end Sys2Proof
end

