-- ==== Sys2Proof/Machine/Constants.lean ====
section
/-! DEFINITION. The fixed parameters of 00_scope.md R9 and the default values of the two arguments (R9, R51). -/

namespace Sys2Proof.Machine

/-- `FAST_MAX` = 2^28 - 1 (R9, R83). -/
def fastMax : Word := 0xFFFFFFF
/-- `PRIME_MASK`: bit q set for the ten primes q below 31 (R9, R111). -/
def primeMask : BitVec 32 := 0x208A28AC
/-- `TRIVIAL_LIMIT` (R9, R111). -/
def trivialLimit : Word := 31
/-- `TRIAL_PRIMES` (R9, R112). -/
def trialPrimes : List Word := [2, 3, 5, 7, 11, 13, 17]
/-- `SMALL_FLOOR` = 17 * 19 (R9, R113, C3). -/
def smallFloor : Word := 323
/-- `SENTINEL` (R9, R42). -/
def sentinel : Word := 0

/-- The default `WITNESS_TABLE` (R51). The values are the spec's, marked there as general knowledge (G1, log 18). -/
def defaultTable : List WitnessRow :=
  [ ⟨2047, [2]⟩,
    ⟨1373653, [2, 3]⟩,
    ⟨25326001, [2, 3, 5]⟩,
    ⟨3215031751, [2, 3, 5, 7]⟩,
    ⟨2152302898747, [2, 3, 5, 7, 11]⟩,
    ⟨3474749660383, [2, 3, 5, 7, 11, 13]⟩,
    ⟨341550071728321, [2, 3, 5, 7, 11, 13, 17]⟩,
    ⟨3825123056546413051, [2, 3, 5, 7, 11, 13, 17, 19, 23]⟩,
    ⟨18446744073709551616, [2, 3, 5, 7, 11, 13, 17, 19, 23, 29, 31, 37]⟩ ]

/-- The parameters of this hardware: no wide multiplier, the default table (R9, D14, D19). -/
def defaultParams : Params := { hasWideMul := false, witnessTable := defaultTable }

/-- `TOP_BOUND`: the bound of the last row (R9); 0 for a table without rows, which R41 forbids. -/
def topBound (t : List WitnessRow) : Nat := (t.getLast?.map WitnessRow.bound).getD 0

end Sys2Proof.Machine
end

