-- ==== Sys2Proof/Machine/State.lean ====
section
/-! DEFINITION. The state of the block (10_state.md R25, R26), the parameters it was built with (R9), the host's
inputs (R24), and the model's own fields for what the spec leaves free. All of it is plain data. -/

namespace Sys2Proof.Machine

/-- `PHASE` (R25). The bit pattern is not fixed and the fourth pattern unreachable (U9, log 14), so it is an
enumeration. -/
inductive Phase
  /-- A command can be taken. -/
  | idle
  /-- A command is in the block and its response is not there yet. -/
  | busy
  /-- A response is offered. -/
  | resp
  deriving DecidableEq, Repr, Inhabited

/-- What the host drives on the input ports at one rising edge of `clk` (table of R24). -/
structure Edge where
  rst : Bool
  cmdValid : Bool
  cmdOp : BitVec 2
  cmdA : Word
  cmdB : Word
  cmdM : Word
  rspReady : Bool
  deriving DecidableEq, Repr, Inhabited

/-- The host does nothing at this edge: no reset, no command offered, no response taken. -/
def Edge.quiet : Edge :=
  { rst := false, cmdValid := false, cmdOp := 0, cmdA := 0, cmdB := 0, cmdM := 0, rspReady := false }

/-- The reasons a step stops with a fault. There are none: the three faults of this block are responses (R140,
R146), so they are next states, and the block cannot hang (R166). Log 16, safe. -/
inductive Fault
  deriving DecidableEq, Repr

/-- The reasons a step has no meaning. -/
inductive Refusal
  /-- Raised by `exec` for an instruction whose meaning is not written yet; no arm uses it. Safe. -/
  | notModelled (mnemonic : String)
  deriving DecidableEq, Repr

/-- The state of one instance of the block. -/
structure State where
  /-- `PHASE` (R25). -/
  phase : Phase
  /-- `OP`, the command latch's operation code (R25). -/
  op : BitVec 2
  /-- `A` (R25). -/
  a : Word
  /-- `B` (R25). -/
  b : Word
  /-- `M` (R25). -/
  m : Word
  /-- `RSP_STATUS` (R25). -/
  rspStatus : BitVec 2
  /-- `RSP_RESULT` (R25). -/
  rspResult : Word
  /-- The working registers and the sequencer (R26). -/
  work : Work
  /-- The parameters this instance was built with (R9, R150); no step writes them (R41). Log 8. -/
  cfg : Params
  /-- The model's own: what the host drives at the coming edges, oldest first (R24, R163). Log 5. -/
  edges : List Edge
  /-- The model's own: edges that still pass before COMPLETE (R28, U5). Log 4. -/
  busyLeft : Nat
  /-- The model's own: numbers placed from outside for the coming draws. Log 4. -/
  supply : List Nat
  /-- The model's own: how many free values of Config have been drawn. Log 4. -/
  draws : Nat
  deriving DecidableEq, Repr

/-- The machine right after reset (R33): `PHASE` is IDLE. Every other value is a DESIGN CHOICE, unsafe (log 1,
log 2: the spec gives none), but for the parameters, which are this hardware's (R9, R51). -/
def State.reset : State :=
  { phase := .idle, op := 0, a := 0, b := 0, m := 0, rspStatus := 0, rspResult := 0,
    work := Work.zero, cfg := defaultParams, edges := [], busyLeft := 0, supply := [], draws := 0 }

end Sys2Proof.Machine
end

