-- ==== Sys2Proof/Machine/Flags.lean ====
section
/-! DEFINITION. The block has no flags and no condition codes (R23). The only status is the 2-bit code of one
response (R66) and the truth value that ISPRIME returns (R67). -/

namespace Sys2Proof.Machine

/-- The meaning of a response's status (R66, R141). -/
inductive Status
  | ok
  | errModZero
  | errIllegalOp
  | errRange
  deriving DecidableEq, Repr, Inhabited

/-- The status codes (table of R66). -/
def Status.code : Status → BitVec 2
  | .ok => 0
  | .errModZero => 1
  | .errIllegalOp => 2
  | .errRange => 3

/-- The answer of the procedure `isprime` (R119). -/
inductive Verdict
  | prime
  | notPrime
  | outOfRange
  deriving DecidableEq, Repr, Inhabited

/-- The response to an ISPRIME command: 1 for prime, 0 for not prime (R67), `ERR_RANGE` with 0 (R70, R144). -/
def Verdict.answer : Verdict → Status × Word
  | .prime => (.ok, 1)
  | .notPrime => (.ok, 0)
  | .outOfRange => (.errRange, 0)

end Sys2Proof.Machine
end

