-- ==== Sys2Proof/Syntax.lean ====
section
/-! DEFINITION. The commands of the block as syntax: one constructor per row of spec/opcode_table.json (R61, R62). -/

namespace Sys2Proof

/-- The three operations (R5, R61) with the fields of the command that carry them (R62).
Operation code 3 is reserved and stands for no instruction (R64): the decoder refuses it. -/
inductive Instr
  /-- `MULMOD a, b, m` (R80). -/
  | mulmod (a b m : Word)
  /-- `POWMOD base, exponent, m` (R100). -/
  | powmod (base exponent m : Word)
  /-- `ISPRIME p` (R110); the fields b and m of the command are ignored (R63) but are kept here, so that the
  command word can be written back whole. DESIGN CHOICE (log 10), safe. -/
  | isprime (p ignoredB ignoredM : Word)
  deriving DecidableEq, Repr, Inhabited

end Sys2Proof
end

