-- ==== Sys2Proof/Decode.lean ====
section
/-! DEFINITION. The command format (30_encoding.md R60 to R64): fields, the decoder, total on all 2^194 words, and
the encoder. -/

namespace Sys2Proof

/-- Field `op`, bits 193:192 (R60). -/
def Cmd.op (w : Cmd) : BitVec 2 := w.extractLsb' 192 2
/-- Field `a`, bits 191:128 (R60). -/
def Cmd.a (w : Cmd) : Word := w.extractLsb' 128 64
/-- Field `b`, bits 127:64 (R60). -/
def Cmd.b (w : Cmd) : Word := w.extractLsb' 64 64
/-- Field `m`, bits 63:0 (R60). -/
def Cmd.m (w : Cmd) : Word := w.extractLsb' 0 64

/-- The command word of four fields, `op` in the upper bits (R60). -/
def Cmd.ofFields (op : BitVec 2) (a b m : Word) : Cmd := op ++ a ++ b ++ m

/-- The operation codes of R61. -/
def opMulmod : BitVec 2 := 0
def opPowmod : BitVec 2 := 1
def opIsprime : BitVec 2 := 2
/-- The reserved operation code (R61, R64). -/
def opReserved : BitVec 2 := 3

/-- The instruction of four fields: `op` alone selects it (R61), the operands are whole fields (R62).
`none` is the reserved operation code 3 (R64), the only refused encoding. -/
def decodeFields (op : BitVec 2) (a b m : Word) : Option Instr :=
  if op = opMulmod then some (.mulmod a b m)
  else if op = opPowmod then some (.powmod a b m)
  else if op = opIsprime then some (.isprime a b m)
  else none

/-- The decoder over the command word (R60, R61). -/
def decode (w : Cmd) : Option Instr := decodeFields (Cmd.op w) (Cmd.a w) (Cmd.b w) (Cmd.m w)

/-- The command word of an instruction (R60 to R62; `ISPRIME` with the ignored fields it holds, R63). -/
def encode : Instr → Cmd
  | .mulmod a b m => Cmd.ofFields opMulmod a b m
  | .powmod base exponent m => Cmd.ofFields opPowmod base exponent m
  | .isprime p ignoredB ignoredM => Cmd.ofFields opIsprime p ignoredB ignoredM

/-- The command word assembled from a line `ISPRIME p` of the command syntax: 0 in the ignored fields (R68). -/
def assembleIsprime (p : Word) : Cmd := encode (.isprime p 0 0)

/-- The mask of R61, the same for every operation: bits 193 and 192. -/
def opMask : Cmd := 3 <<< 192

/-- The match value of an operation code (R61): `op * 2^192`. -/
def opMatch (op : BitVec 2) : Cmd := op.setWidth 194 <<< 192

/-- The command word that the number `w` of an opcode-table row stands for: its bits below `nbits`, all others 0;
`none` when a bit above the 194 bits of a command is set. -/
def tableCmd (nbits w : Nat) : Option Cmd :=
  if w % 2 ^ nbits < 2 ^ 194 then some (BitVec.ofNat 194 (w % 2 ^ nbits)) else none

/-- What the decoder reads from the command whose bits are `w`, numbered as spec/opcode_table.json numbers them
(one word of 194 bits, bit 0 the least significant: R11, R60). -/
def decodeTableWord (nbits w : Nat) : Option Instr := (tableCmd nbits w).bind decode

end Sys2Proof
end

