-- ==== Sys2Proof/Machine/Operands.lean ====
section
/-! DEFINITION. Where the operands of a command come from: the four ports at the edge of ACCEPT (R27), then the
command latch (R25). There is one operand form, a whole 64-bit field (R62). -/

namespace Sys2Proof.Machine

/-- The command word on the command ports (R24, R60). -/
def Edge.cmd (e : Edge) : Cmd := Cmd.ofFields e.cmdOp e.cmdA e.cmdB e.cmdM

/-- The command word in the latch `OP`, `A`, `B`, `M` (R25, R60). -/
def State.latchCmd (s : State) : Cmd := Cmd.ofFields s.op s.a s.b s.m

/-- The latch takes a command, all four fields at once (R27, R46). -/
def State.latch (s : State) (w : Cmd) : State :=
  { s with op := Cmd.op w, a := Cmd.a w, b := Cmd.b w, m := Cmd.m w }

end Sys2Proof.Machine
end

