-- ==== Sys2Proof/Machine/Ops.lean ====
section
/-! DEFINITION. The named operations over the state: reading the ports, drawing a free number, ending an operation
with a response, raising a fault, and the return from it. -/

namespace Sys2Proof.Machine

/-! ## Input side -/

/-- What the host drives at the coming edge; a host whose list is used up is quiet (log 5). -/
def State.nextEdge (s : State) : Edge := s.edges.head?.getD Edge.quiet

/-- The coming edge is past. -/
def State.popEdge (s : State) : State := { s with edges := s.edges.tail }

/-! ## Free numbers (log 4) -/

/-- The number that the coming draw gives: the one placed from outside, or a free value. -/
def State.drawn (s : State) : Nat := s.supply.head?.getD (Config.freeCount s.draws)

/-- The state after that draw. -/
def State.afterDraw (s : State) : State := { s with supply := s.supply.tail, draws := s.draws + 1 }

/-! ## Output ports (R24, R30) -/

/-- Port `cmd_ready` (R30). -/
def State.cmdReady (s : State) : Bool := decide (s.phase = .idle)

/-- Port `rsp_valid` (R30). -/
def State.rspValid (s : State) : Bool := decide (s.phase = .resp)

/-- Port `rsp_status`: no value while `rsp_valid` is 0 (R30, U6, log 19). -/
def State.rspStatusPort (s : State) : Option (BitVec 2) := if s.rspValid then some s.rspStatus else none

/-- Port `rsp_result`: no value while `rsp_valid` is 0 (R30, U6, log 19). -/
def State.rspResultPort (s : State) : Option Word := if s.rspValid then some s.rspResult else none

/-- The response word `RSP`, status in the upper bits (R65). -/
def rspWord (status : BitVec 2) (result : Word) : Rsp := status ++ result

/-- The response word offered to the host, if one is. -/
def State.rspPort (s : State) : Option Rsp := if s.rspValid then some (rspWord s.rspStatus s.rspResult) else none

/-! ## Ending an operation -/

/-- `respond(status, result)` of R12, the state effect of COMPLETE (R28): the response registers and `PHASE` are
written and nothing else. -/
def State.respond (s : State) (st : Status) (result : Word) : State :=
  { s with rspStatus := st.code, rspResult := result, phase := .resp }

/-- The operation ends with a response. -/
def respond (st : Status) (result : Word) (s : State) : Host.Outcome State Fault Refusal :=
  .next (s.respond st result)

/-- Taking a fault, the one form every fault of this block has (R12 `raise`, R146): the code is answered with
result 0; no state is saved, control goes nowhere. -/
def raise (st : Status) (s : State) : Host.Outcome State Fault Refusal := respond st 0 s

/-- The step DELIVER (R29): the host takes the response. It is also the only return from a fault (R147). -/
def State.deliver (s : State) : State := { s with phase := .idle }

end Sys2Proof.Machine
end

