-- ==== Sys2Proof/Machine/Mulmod.lean ====
section
/-! DEFINITION. MULMOD, the unit MM (40_mulmod.md). The functions of this file have a meaning for a modulus of at
least 1 only (R81, U1, log 11); the one caller that could offer 0 tests it first. -/

namespace Sys2Proof.Machine

/-- `addmod` (R85): the sum, the comparison and the subtraction are made at 65 bits. -/
def addmod (x y m : Word) : Word :=
  let t : BitVec 65 := x.setWidth 65 + y.setWidth 65
  if m.setWidth 65 ≤ t then (t - m.setWidth 65).setWidth 64 else t.setWidth 64

/-- Both reduced operands take the fast path (R83). -/
def fitsFast (x y : Word) : Bool := decide (x ≤ fastMax) && decide (y ≤ fastMax)

/-- The fast path (R83): the product of two 28-bit operands in a 64-bit register. -/
def mulFast (x y m : Word) : Word := (x * y) % m

/-- The wide path (R86): a 128-bit product and its exact remainder. -/
def mulWide (x y m : Word) : Word :=
  ((x.setWidth 128 * y.setWidth 128) % m.setWidth 128).setWidth 64

/-- The accumulation of one round of the general path (R84): it uses `x` from before the doubling. -/
def mulAcc (r x y m : Word) : Word := if y.getLsbD 0 then addmod r x m else r

/-- The loop of the general path (R84), at most `n` rounds; 64 are always enough. -/
def mulLoop (m : Word) : Nat → Word → Word → Word → Word
  | 0, r, _, _ => r
  | n + 1, r, x, y => if y = 0 then r else mulLoop m n (mulAcc r x y m) (addmod x x m) (y >>> 1)

/-- The function `mulmod` (pseudocode of R81). -/
def mulmod (wide : Bool) (a b m : Word) : Word :=
  let a1 := a % m
  let b1 := b % m
  if fitsFast a1 b1 then mulFast a1 b1 m
  else if wide then mulWide a1 b1 m
  else mulLoop m 64 0 a1 b1

/-- `MULMOD a, b, m` (R80, R70): `ERR_MOD_ZERO` for the modulus 0 (R142), else the product's residue. -/
def execMulmod (a b m : Word) (s : State) : Host.Outcome State Fault Refusal :=
  if m = 0 then raise .errModZero s else respond .ok (mulmod s.cfg.hasWideMul a b m) s

end Sys2Proof.Machine
end

