-- ==== Sys2Proof/Machine/Powmod.lean ====
section
/-! DEFINITION. POWMOD, the unit ME (41_powmod.md). As in Mulmod.lean the functions have a meaning for a modulus of
at least 1 only (log 11). -/

namespace Sys2Proof.Machine

/-- The loop of binary exponentiation (R101), at most `n` rounds; 64 are always enough. The multiply uses `x` from
before the squaring. -/
def powLoop (wide : Bool) (m : Word) : Nat → Word → Word → Word → Word
  | 0, r, _, _ => r
  | n + 1, r, x, e =>
    if e = 0 then r
    else powLoop wide m n (if e.getLsbD 0 then mulmod wide r x m else r) (mulmod wide x x m) (e >>> 1)

/-- The function `powmod` (pseudocode of R101): the initial result is `1 mod m` (C2). -/
def powmod (wide : Bool) (base exponent m : Word) : Word :=
  powLoop wide m 64 (1 % m) (base % m) exponent

/-- `POWMOD base, exponent, m` (R100, R70): `ERR_MOD_ZERO` for the modulus 0 (R142), else the power's residue. -/
def execPowmod (base exponent m : Word) (s : State) : Host.Outcome State Fault Refusal :=
  if m = 0 then raise .errModZero s else respond .ok (powmod s.cfg.hasWideMul base exponent m) s

end Sys2Proof.Machine
end

