-- ==== Sys2Proof/Machine/Rom.lean ====
section
/-! DEFINITION. The witness ROM (20_memory.md R41 to R43): a constant of the hardware laid out from the table. -/

namespace Sys2Proof.Machine

/-- The word `PMAX_k = bound_k - 1`, the largest `p` the row serves (R42). -/
def WitnessRow.pmax (r : WitnessRow) : Word := BitVec.ofNat 64 (r.bound - 1)

/-- The words of one row: `PMAX`, the witnesses in order, the sentinel (R42). -/
def WitnessRow.words (r : WitnessRow) : List Word := WitnessRow.pmax r :: r.witnesses ++ [sentinel]

/-- `WROM`: the rows one after the other, row 0 at address 0 (R42). -/
def wrom (t : List WitnessRow) : List Word := t.flatMap WitnessRow.words

/-- `ROWADDR(k)`: the address of the first word of row `k` (R42). -/
def rowAddr (t : List WitnessRow) (k : Nat) : Nat := ((t.take k).map fun r => r.witnesses.length + 2).sum

/-- `RomRead(addr)` (R43): outside the ROM there is no word, and no default one is made up (U10, log 12). -/
def romRead (t : List WitnessRow) (addr : Nat) : Option Word := (wrom t)[addr]?

end Sys2Proof.Machine
end

