-- ==== Sys2Proof/Machine/Isprime.lean ====
section
/-! DEFINITION. ISPRIME, the unit PT (42_isprime.md): the seven steps and the whole procedure. -/

namespace Sys2Proof.Machine

/-- Step 1 (R111): membership in the primes below 31, for `p < 31`. -/
def trivialVerdict (p : Word) : Verdict := if primeMask.getLsbD p.toNat then .prime else .notPrime

/-- One trial division of step 2 (R112). -/
def trialHit (p q : Word) : Bool := decide (p % q = 0) && decide (p ≠ q)

/-- Step 2 (R112): some trial prime divides `p` and is not `p`. -/
def trialDivides (p : Word) : Bool := trialPrimes.any (trialHit p)

/-- Step 4 (R114): the first row whose bound exceeds `p`. -/
def selectRow (t : List WitnessRow) (p : Word) : Option WitnessRow := t.find? fun r => decide (p.toNat < r.bound)

/-- Step 5 (R116), at most `n` shifts: trailing zero bits of `d` are shifted out and counted. -/
def decompose : Nat → Word → Nat → Word × Nat
  | 0, d, s => (d, s)
  | n + 1, d, s => if d.getLsbD 0 then (d, s) else decompose n (d >>> 1) (s + 1)

/-- Step 6 (iii) (R117): up to `n` squarings; reaching 1 first or running out means composite. -/
def squareLoop (wide : Bool) (p : Word) : Nat → Word → Bool
  | 0, _ => false
  | n + 1, x =>
    let x' := mulmod wide x x p
    if x' = 1 then false else if x' = p - 1 then true else squareLoop wide p n x'

/-- Step 6 for one witness (R117 (i) to (iv)): it is satisfied. -/
def satisfied (wide : Bool) (p d : Word) (s : Nat) (w : Word) : Bool :=
  let x := powmod wide w d p
  if x = 1 ∨ x = p - 1 then true else squareLoop wide p (s - 1) x

/-- Steps 5 to 7 (R116 to R118) with the witnesses of the chosen row: prime when every one is satisfied. -/
def strongTest (wide : Bool) (p : Word) (ws : List Word) : Verdict :=
  let ds := decompose 64 (p - 1) 0
  if ws.all (satisfied wide p ds.1 ds.2) then .prime else .notPrime

/-- Steps 4 to 7 (R114 to R118): no row that serves `p` gives `OUT_OF_RANGE` (R115). -/
def witnessStages (cfg : Params) (p : Word) : Verdict :=
  match selectRow cfg.witnessTable p with
  | none => .outOfRange
  | some r => strongTest cfg.hasWideMul p r.witnesses

/-- The function `isprime` (pseudocode of R119). -/
def isprime (cfg : Params) (p : Word) : Verdict :=
  if p < trivialLimit then trivialVerdict p
  else if trialDivides p then .notPrime
  else if p < smallFloor then .prime
  else witnessStages cfg p

/-- `ISPRIME p` (R110, R70): the fields b and m are not read (R63). -/
def execIsprime (p _ignoredB _ignoredM : Word) (s : State) : Host.Outcome State Fault Refusal :=
  respond (isprime s.cfg p).answer.1 (isprime s.cfg p).answer.2 s

end Sys2Proof.Machine
end

