-- ==== Sys2Proof/Machine/Dispatch.lean ====
section
/-! DEFINITION. One arm per instruction: the effect of the step COMPLETE for it (R28, R70). -/

namespace Sys2Proof.Machine

def exec (i : Instr) (s : State) : Host.Outcome State Fault Refusal :=
  match i with
  | .mulmod a b m => Sys2Proof.Machine.execMulmod a b m s
  | .powmod base exponent m => Sys2Proof.Machine.execPowmod base exponent m s
  | .isprime p ignoredB ignoredM => Sys2Proof.Machine.execIsprime p ignoredB ignoredM s

end Sys2Proof.Machine
end

