-- ==== Sys2Proof/Machine/Sequencer.lean ====
section
/-! DEFINITION. The units at register level: one micro-step of the sequencer over the working registers (R26), with
the loops of 40_mulmod.md R84, 41_powmod.md R101 and 42_isprime.md R114 to R118 taken one iteration at a time and
the witness ROM read word by word (R42, R43). Control goes PT over ME over MM only (R123). -/

namespace Sys2Proof.Machine

/-- A unit finishes the command with a status and a result. -/
def Work.finish (w : Work) (st : Status) (result : Word) : Work := { w with seq := .done st.code result }

/-- PT finishes with a verdict (R70). -/
def Work.finishVerdict (w : Work) (v : Verdict) : Work := w.finish v.answer.1 v.answer.2

/-- MM is started with `(a, b, m)`: the operands are reduced as they are loaded (R82). -/
def Work.callMm (w : Work) (c : MmCaller) (a b m : Word) : Work :=
  { w with mmA := a % m, mmB := b % m, mmM := m, seq := .mmSelect c }

/-- ME is started with `(base, exponent, m)` (R101). -/
def Work.callMe (w : Work) (c : MeCaller) (base exponent m : Word) : Work :=
  { w with meR := 1 % m, meB := base % m, meE := exponent, meM := m, seq := .meLoop c }

/-- MM is done, its value in `MM_R`; control goes back to the unit that started it (R123). -/
def Work.returnMm (w : Work) : MmCaller → Work
  | .command => w.finish .ok w.mmR
  | .multiply c => { w with meR := w.mmR }.callMm (.square c) w.meB w.meB w.meM
  | .square c => { w with meB := w.mmR, meE := w.meE >>> 1, seq := .meLoop c }
  | .tester => { w with ptX := w.mmR, ptRC := w.ptRC + 1, seq := .ptNext }

/-- ME is done, its value in `ME_R` (R123). -/
def Work.returnMe (w : Work) : MeCaller → Work
  | .command => w.finish .ok w.meR
  | .tester => { w with ptX := w.meR, seq := .ptFirst }

/-- The first micro-step of a command: the unit is chosen and loaded, or the command faults (R70). -/
def Work.dispatch (w : Work) (op : BitVec 2) (a b m : Word) : Work :=
  if op = 3 then w.finish .errIllegalOp 0
  else if op = 0 then if m = 0 then w.finish .errModZero 0 else w.callMm .command a b m
  else if op = 1 then if m = 0 then w.finish .errModZero 0 else w.callMe .command a b m
  else { w with seq := .ptTrivial }

/-- The path of MM is chosen by the reduced operands (R83, R84, R86). -/
def Work.mmSelect (w : Work) (wide : Bool) (c : MmCaller) : Work :=
  if fitsFast w.mmA w.mmB then { w with mmR := mulFast w.mmA w.mmB w.mmM }.returnMm c
  else if wide then { w with mmR := mulWide w.mmA w.mmB w.mmM }.returnMm c
  else { w with mmR := 0, seq := .mmLoop c }

/-- One round of the double-and-add loop (R84). -/
def Work.mmLoop (w : Work) (c : MmCaller) : Work :=
  if w.mmB = 0 then w.returnMm c
  else { w with mmR := mulAcc w.mmR w.mmA w.mmB w.mmM, mmA := addmod w.mmA w.mmA w.mmM, mmB := w.mmB >>> 1 }

/-- One round of square-and-multiply (R101): the multiply first, if the bit is set, then the squaring. -/
def Work.meLoop (w : Work) (c : MeCaller) : Work :=
  if w.meE = 0 then w.returnMe c
  else if w.meE.getLsbD 0 then w.callMm (.multiply c) w.meR w.meB w.meM
  else w.callMm (.square c) w.meB w.meB w.meM

/-- PT step 4, one row of the linear search on the ROM (R114); past the last row there is no answer (R115). -/
def Work.ptSearch (w : Work) (t : List WitnessRow) (p : Word) (k : Nat) : Work :=
  if k = t.length then w.finishVerdict .outOfRange
  else match romRead t w.ptWA with
    | none => { w with seq := .noWord }
    | some pmax =>
      if p ≤ pmax then { w with ptWA := w.ptWA + 1, ptD := p - 1, ptS := 0, seq := .ptDecompose }
      else { w with ptWA := w.ptWA + 1, seq := .ptSkip k }

/-- PT step 4: past one word of a row that does not serve `p`, up to and including its sentinel (R114).
DESIGN CHOICE (log 13): past the sentinel of the last row `PT_WA` is kept at `ROWADDR(K)`, one past the ROM; nothing is
read there, since the search ends. The spec leaves open what the register holds then: R114 advances `addr` past the
row, R43 says that no address outside the ROM is formed. -/
def Work.ptSkip (w : Work) (t : List WitnessRow) (k : Nat) : Work :=
  match romRead t w.ptWA with
  | none => { w with seq := .noWord }
  | some word =>
    { w with ptWA := w.ptWA + 1, seq := if word = sentinel then .ptSearch (k + 1) else .ptSkip k }

/-- PT step 5, one shift (R116). -/
def Work.ptDecompose (w : Work) : Work :=
  if w.ptD.getLsbD 0 then { w with seq := .ptWitness } else { w with ptD := w.ptD >>> 1, ptS := w.ptS + 1 }

/-- PT step 6, the next witness or the sentinel (R117); at the sentinel every witness is satisfied (R118). -/
def Work.ptWitness (w : Work) (t : List WitnessRow) (p : Word) : Work :=
  match romRead t w.ptWA with
  | none => { w with seq := .noWord }
  | some word =>
    if word = sentinel then w.finishVerdict .prime
    else { w with ptWA := w.ptWA + 1 }.callMe .tester word w.ptD p

/-- PT step 6 (ii) (R117). -/
def Work.ptFirst (w : Work) (p : Word) : Work :=
  if w.ptX = 1 ∨ w.ptX = p - 1 then { w with seq := .ptWitness } else { w with ptRC := 0, seq := .ptSquare }

/-- PT step 6 (iii): another squaring while fewer than `s - 1` are done, else composite (R117 (iv)). -/
def Work.ptSquare (w : Work) (p : Word) : Work :=
  if w.ptRC.toNat < w.ptS.toNat - 1 then w.callMm .tester w.ptX w.ptX p else w.finishVerdict .notPrime

/-- PT step 6 (iii): the test for 1 comes before the test for `p - 1` (R117). -/
def Work.ptNext (w : Work) (p : Word) : Work :=
  if w.ptX = 1 then w.finishVerdict .notPrime
  else if w.ptX = p - 1 then { w with seq := .ptWitness }
  else { w with seq := .ptSquare }

/-- One micro-step for the command `(op, a, b, m)` of the latch; for ISPRIME the latch's `A` is `p` (R62). -/
def microStep (cfg : Params) (op : BitVec 2) (a b m : Word) (w : Work) : Work :=
  match w.seq with
  | .start => w.dispatch op a b m
  | .mmSelect c => w.mmSelect cfg.hasWideMul c
  | .mmLoop c => w.mmLoop c
  | .meLoop c => w.meLoop c
  | .ptTrivial =>
    if a < trivialLimit then w.finishVerdict (trivialVerdict a) else { w with seq := .ptTrial trialPrimes }
  | .ptTrial [] => { w with seq := .ptFloor }
  | .ptTrial (q :: left) =>
    if trialHit a q then w.finishVerdict .notPrime else { w with seq := .ptTrial left }
  | .ptFloor =>
    if a < smallFloor then w.finishVerdict .prime else { w with ptWA := 0, seq := .ptSearch 0 }
  | .ptSearch k => w.ptSearch cfg.witnessTable a k
  | .ptSkip k => w.ptSkip cfg.witnessTable k
  | .ptDecompose => w.ptDecompose
  | .ptWitness => w.ptWitness cfg.witnessTable a
  | .ptFirst => w.ptFirst a
  | .ptSquare => w.ptSquare a
  | .ptNext => w.ptNext a
  | .done _ _ => w
  | .noWord => w

/-- `n` micro-steps. -/
def microRun (cfg : Params) (op : BitVec 2) (a b m : Word) : Nat → Work → Work
  | 0, w => w
  | n + 1, w => microRun cfg op a b m n (microStep cfg op a b m w)

end Sys2Proof.Machine
end

