-- ==== Sys2Proof/Machine/Cycle.lean ====
section
/-! DEFINITION. What the block does at one rising edge (10_state.md R27 to R32, 70_reset_and_hazards.md R160). -/

namespace Sys2Proof.Machine

/-- Step ACCEPT (R27): the four fields are latched together. The latency of the command is drawn (R28, log 4) and
the sequencer begins (log 7); nothing else changes. -/
def State.accept (s : State) (e : Edge) : State :=
  { s.afterDraw with
    op := e.cmdOp, a := e.cmdA, b := e.cmdB, m := e.cmdM, phase := .busy,
    busyLeft := s.drawn, work := { s.work with seq := .start } }

/-- An edge in BUSY with the work not finished (R32): nothing visible happens; the working registers move a free
number of micro-steps (R26, log 6). -/
def State.workOn (s : State) : State :=
  { s.afterDraw with
    busyLeft := s.busyLeft - 1, work := microRun s.cfg s.op s.a s.b s.m s.drawn s.work }

/-- Step COMPLETE (R28): the latched command is decoded and its meaning gives the response; the reserved operation
code is answered by its fault (R64, R143). -/
def complete (s : State) : Host.Outcome State Fault Refusal :=
  match decode s.latchCmd with
  | some i => exec i s
  | none => raise .errIllegalOp s

/-- The reset step (R160): `PHASE` is IDLE, all other state is unspecified (R33, U7), so it takes free values
(log 3). The parameters and the ROM are not touched (R41). -/
def State.resetEdge (s : State) : State :=
  { s with
    phase := .idle,
    op := Config.freeOp s.draws, a := Config.freeA s.draws, b := Config.freeB s.draws, m := Config.freeM s.draws,
    rspStatus := Config.freeStatus s.draws, rspResult := Config.freeResult s.draws,
    work := Config.freeWork s.draws, draws := s.draws + 1 }

/-- The step the block takes at an edge where the host drives `e` (table of R32); reset comes first (R160). -/
def takeEdge (e : Edge) (s : State) : Host.Outcome State Fault Refusal :=
  if e.rst then .next s.resetEdge
  else match s.phase with
    | .idle => if e.cmdValid then .next (s.accept e) else .next s
    | .busy => if s.busyLeft = 0 then complete s else .next s.workOn
    | .resp => if e.rspReady then .next s.deliver else .next s

end Sys2Proof.Machine
end

