-- ==== Sys2Proof/Machine/Step.lean ====
section
/-! DEFINITION. One step is one rising edge of `clk` (R24, log 15). -/

namespace Sys2Proof.Machine

/-- The host's inputs for the coming edge are taken from `edges`, and the block takes its step at that edge. -/
def step (s : State) : Host.Outcome State Fault Refusal := takeEdge s.nextEdge s.popEdge

/-- The command whose bits are `w` is placed where the block takes its next instruction from: the command latch,
with the block BUSY and its work due, and a quiet edge comes next, so that the next step is COMPLETE of exactly
that command (log 9). -/
def State.withFetchWord (s : State) (nbits w : Nat) : State :=
  { s.latch (BitVec.ofNat 194 (w % 2 ^ nbits)) with phase := .busy, busyLeft := 0, edges := Edge.quiet :: s.edges }

end Sys2Proof.Machine
end

