-- ==== Sys2Proof/Machine/ExecPair.lean ====
section
/-! DEFINITION. The function `Exec` of 30_encoding.md R70, as the pair it returns. The step does not call it (it
decodes the latch and runs the instruction's meaning); claims say that the two agree. The sequencer uses it for
nothing either. -/

namespace Sys2Proof.Machine

/-- `Exec(op, a, b, m)` (pseudocode of R70); the order of the tests is the priority of faults (R145). -/
def execPair (cfg : Params) (op : BitVec 2) (a b m : Word) : BitVec 2 × Word :=
  if op = 3 then (Status.errIllegalOp.code, 0)
  else if op = 0 then
    if m = 0 then (Status.errModZero.code, 0) else (Status.ok.code, mulmod cfg.hasWideMul a b m)
  else if op = 1 then
    if m = 0 then (Status.errModZero.code, 0) else (Status.ok.code, powmod cfg.hasWideMul a b m)
  else
    match isprime cfg a with
    | .prime => (Status.ok.code, 1)
    | .notPrime => (Status.ok.code, 0)
    | .outOfRange => (Status.errRange.code, 0)

end Sys2Proof.Machine
end

