-- ==== Sys2Proof/Safety.lean ====
section
/-! DEFINITION. The terms in which claims about the block are stated: the answer a command is owed (R70), the
invariants, the observable trace (R169) and the named assumption on the witness table (R120). -/

namespace Sys2Proof.Machine

/-- `Exec` of the command in the latch: the answer COMPLETE writes (R28). -/
def State.answer (s : State) : BitVec 2 × Word := execPair s.cfg s.op s.a s.b s.m

/-- `Exec` of a command word (R60, R70). -/
def execWord (cfg : Params) (w : Cmd) : BitVec 2 × Word :=
  execPair cfg (Cmd.op w) (Cmd.a w) (Cmd.b w) (Cmd.m w)

/-- A response that is offered is the answer to the command in the latch (R28, R47 (a)). -/
def State.RespInv (s : State) : Prop := s.phase = .resp → (s.rspStatus, s.rspResult) = s.answer

/-- While a command is worked on, the working registers are some number of micro-steps on from the start of
exactly that command (R26). -/
def State.WorkInv (s : State) : Prop :=
  s.phase = .busy →
    ∃ (n : Nat) (w : Work), w.seq = .start ∧ s.work = microRun s.cfg s.op s.a s.b s.m n w

/-- The multiplier's working values are residues of its modulus (R82, R85, R89 (c)): the invariant of the
double-and-add loop. -/
def Work.MmResidues (w : Work) : Prop :=
  w.mmM ≠ 0 ∧ w.mmR < w.mmM ∧ w.mmA < w.mmM ∧ w.mmB < w.mmM

/-- What the host can observe at one edge (R169): a reset it applied, a command accepted, a response delivered. -/
inductive Event
  | reset
  | accepted (w : Cmd)
  | delivered (status : BitVec 2) (result : Word)
  deriving DecidableEq, Repr

/-- The observable event of the coming edge, if there is one (R27, R29, R160, R169). -/
def State.event (s : State) : Option Event :=
  if s.nextEdge.rst then some .reset
  else match s.phase with
    | .idle => if s.nextEdge.cmdValid then some (.accepted s.nextEdge.cmd) else none
    | .busy => none
    | .resp => if s.nextEdge.rspReady then some (.delivered s.rspStatus s.rspResult) else none

/-- The observable events of `n` edges, in order (R169). -/
def trace : Nat → State → List Event
  | 0, _ => []
  | n + 1, s =>
    match step s with
    | .next t => s.event.toList ++ trace n t
    | .fault _ => s.event.toList
    | .refused _ => s.event.toList

/-- The command the host still waits for the response of (R31). -/
def State.outstanding (s : State) : Option Cmd :=
  match s.phase with
  | .idle => none
  | .busy => some s.latchCmd
  | .resp => some s.latchCmd

/-- The rule of the host interface (R31, R47, R169): commands and responses alternate, a response is `Exec` of the
command before it, and a reset drops the command in the block (R161). -/
def AnsweredInOrder (cfg : Params) : Option Cmd → List Event → Prop
  | _, [] => True
  | _, .reset :: es => AnsweredInOrder cfg none es
  | none, .accepted w :: es => AnsweredInOrder cfg (some w) es
  | some w, .delivered st r :: es => (st, r) = execWord cfg w ∧ AnsweredInOrder cfg none es
  | some _, .accepted _ :: _ => False
  | none, .delivered _ _ :: _ => False

/-- Two states the host cannot tell apart from the next edge on: they agree on `PHASE`, on the parameters, on the
inputs and the draws to come, on the command in the block while there is one (R31), on the edges left while BUSY, and
on the response while one is offered (R30). Dead registers may differ: a stale latch, a response already delivered,
and the working registers always (R25, R26). -/
def SameToTheHost (s t : State) : Prop :=
  s.phase = t.phase ∧ s.cfg = t.cfg ∧ s.edges = t.edges ∧ s.supply = t.supply ∧ s.draws = t.draws ∧
  (s.phase ≠ .idle → s.latchCmd = t.latchCmd) ∧
  (s.phase = .busy → s.busyLeft = t.busyLeft) ∧
  (s.phase = .resp → s.rspStatus = t.rspStatus ∧ s.rspResult = t.rspResult)

/-- The assumption `WitnessTableValid` (R120): steps 4 to 7 classify every `p` from the floor up to `TOP_BOUND` that
no trial prime divides. The spec carries it as a hypothesis and so does every claim that needs it. -/
def WitnessTableValid (cfg : Params) : Prop :=
  ∀ p : Word, 323 ≤ p.toNat → p.toNat < topBound cfg.witnessTable → (∀ q ∈ trialPrimes, ¬ q.toNat ∣ p.toNat) →
    (Nat.Prime p.toNat → witnessStages cfg p = .prime) ∧ (¬ Nat.Prime p.toNat → witnessStages cfg p = .notPrime)

end Sys2Proof.Machine
end

