-- ==== Sys2Proof/WellFormed.lean ====
section
/-! DEFINITION. What the spec asks of a command and of the parameters before the hardware is built from them. -/

namespace Sys2Proof

/-- Every command is legal: each operand is a whole 64-bit field and every value of it is legal (R10, R62), the
modulus 0 included, which is answered by a fault and not forbidden (R142), and so is every value of the ignored
fields (R63). The width of the fields is in the type, so no check is left. -/
def Instr.wf : Instr → Bool
  | .mulmod _ _ _ => true
  | .powmod _ _ _ => true
  | .isprime _ _ _ => true

/-- One row of R41: `1 <= bound <= 2^64`, a non-empty list, no witness 0. -/
def WitnessRow.wf (r : WitnessRow) : Bool :=
  decide (1 ≤ r.bound) && decide (r.bound ≤ 2 ^ 64) && !r.witnesses.isEmpty && r.witnesses.all (· != 0)

/-- The bounds increase strictly from row to row (R41). -/
def boundsIncrease : List WitnessRow → Bool
  | r :: r' :: rest => decide (r.bound < r'.bound) && boundsIncrease (r' :: rest)
  | _ => true

/-- The parameters are those of a block that can be built: at least one row, each row well formed, the bounds
strictly increasing (R41). -/
def Params.wf (cfg : Params) : Bool :=
  !cfg.witnessTable.isEmpty && cfg.witnessTable.all WitnessRow.wf && boundsIncrease cfg.witnessTable

end Sys2Proof
end

