-- ==== Sys2Proof/Certificates/Slice0/Obligations.lean ====
section
/-! DEFINITION. What is to be proved about the model. Each statement cites the rule of spec/ it formalises. -/

open Sys2Proof Sys2Proof.Machine

/-! ## Encoding -/

/-- Every command survives encoding and decoding, with every operand at every value (R60 to R63). -/
def Obligations.CommandWordRoundTrip : Prop :=
  ∀ i : Instr, i.wf = true → decode (encode i) = some i

/-- Each command word has one meaning: what decodes is encoded back to the same word, no bit dropped. For MULMOD and
POWMOD this is R60 to R62. For an ISPRIME word whose fields b and m are not 0 it is the model's choice and no rule of
the spec: it holds because `Instr.isprime` keeps the ignored fields (log 10, DESIGN CHOICE). -/
def Obligations.DecodedWordEncodesBack : Prop :=
  ∀ (w : Cmd) (i : Instr), decode w = some i → encode i = w

/-- R61: the mask selects the operation code, the match values are `op * 2^192`, each operation is decoded exactly
from the words that match it, the reserved words are refused, and every word matches exactly one code. -/
def Obligations.OperationByMaskAndMatch : Prop :=
  opMask.toNat = 3 * 2 ^ 192 ∧ (∀ op, (opMatch op).toNat = op.toNat * 2 ^ 192) ∧
  ∀ w : Cmd,
    ((∃ a b m, decode w = some (.mulmod a b m)) ↔ w &&& opMask = opMatch 0) ∧
    ((∃ a b m, decode w = some (.powmod a b m)) ↔ w &&& opMask = opMatch 1) ∧
    ((∃ a b m, decode w = some (.isprime a b m)) ↔ w &&& opMask = opMatch 2) ∧
    (decode w = none ↔ w &&& opMask = opMatch 3) ∧
    (∃ op, w &&& opMask = opMatch op ∧ ∀ op', w &&& opMask = opMatch op' → op' = op)

/-- The bit positions of the command fields (R60) and of the response fields (R65), as numbers. -/
def Obligations.CommandAndResponseBitLayout : Prop :=
  (∀ (op : BitVec 2) (a b m : Word),
    (Cmd.ofFields op a b m).toNat = op.toNat * 2 ^ 192 + a.toNat * 2 ^ 128 + b.toNat * 2 ^ 64 + m.toNat ∧
    Cmd.op (Cmd.ofFields op a b m) = op ∧ Cmd.a (Cmd.ofFields op a b m) = a ∧
    Cmd.b (Cmd.ofFields op a b m) = b ∧ Cmd.m (Cmd.ofFields op a b m) = m) ∧
  (∀ (st : BitVec 2) (r : Word), (rspWord st r).toNat = st.toNat * 2 ^ 64 + r.toNat)

/-- Command words written out in 95_test_vectors.md (M2, P7, PG1 n 3, E2) decode to what they stand for. -/
def Obligations.SampleCommandWordsDecode : Prop :=
  decode 0x000000000000000070000000000000009000000000000000A = some (.mulmod 7 9 10) ∧
  decode 0x10000000000000002000000000000000A00000000000003E8 = some (.powmod 2 10 1000) ∧
  decode 0x2000000000000014B00000000DEADBEEF0000000000000000 = some (.isprime 331 0xDEADBEEF 0) ∧
  decode 0x3000000000000000500000000000000060000000000000007 = none

/-! ## The command cycle -/

/-- A step in BUSY with the work due runs the instruction that the latched command word decodes to (R28), on the
state from which the edge's input has been taken. That the edges left are counted in `busyLeft` is the model's
(log 4). -/
def Obligations.StepRunsTheLatchedCommand : Prop :=
  ∀ (s : State) (i : Instr), s.phase = .busy → s.busyLeft = 0 → s.nextEdge.rst = false →
    decode s.latchCmd = some i → step s = exec i s.popEdge

/-- R28: in BUSY, when the work is due and there is no reset, the step writes `Exec` of the latch into the response
registers, goes to RESP and writes nothing else. -/
def Obligations.CompleteAppliesExec : Prop :=
  ∀ s : State, s.phase = .busy → s.busyLeft = 0 → s.nextEdge.rst = false →
    step s = .next { s.popEdge with
      rspStatus := (execPair s.cfg s.op s.a s.b s.m).1,
      rspResult := (execPair s.cfg s.op s.a s.b s.m).2, phase := .resp }

/-- R70: `Exec` case by case, the reserved code before the modulus and the modulus before the arithmetic (R145). -/
def Obligations.ExecFollowsThePseudocode : Prop :=
  ∀ (cfg : Params) (a b m : Word),
    execPair cfg 3 a b m = (2, 0) ∧
    execPair cfg 0 a b 0 = (1, 0) ∧ (m ≠ 0 → execPair cfg 0 a b m = (0, mulmod cfg.hasWideMul a b m)) ∧
    execPair cfg 1 a b 0 = (1, 0) ∧ (m ≠ 0 → execPair cfg 1 a b m = (0, powmod cfg.hasWideMul a b m)) ∧
    (isprime cfg a = .prime → execPair cfg 2 a b m = (0, 1)) ∧
    (isprime cfg a = .notPrime → execPair cfg 2 a b m = (0, 0)) ∧
    (isprime cfg a = .outOfRange → execPair cfg 2 a b m = (3, 0))

/-- R143: the reserved operation code is answered with status 2 and result 0, whatever the other fields hold, the
modulus 0 included. -/
def Obligations.ReservedCodeIsAnswered : Prop :=
  ∀ s : State, s.phase = .busy → s.busyLeft = 0 → s.nextEdge.rst = false → s.op = 3 →
    step s = .next { s.popEdge with rspStatus := 2, rspResult := 0, phase := .resp }

/-- R27: ACCEPT latches the four fields of the edge and goes to BUSY; the response registers, the parameters and the
working registers keep their values. The sequencer begins anew, which is the model's reading (log 7). -/
def Obligations.AcceptLatchesTheCommand : Prop :=
  ∀ s : State, s.phase = .idle → s.nextEdge.rst = false → s.nextEdge.cmdValid = true →
    ∃ t, step s = .next t ∧ t.phase = .busy ∧ t.op = s.nextEdge.cmdOp ∧ t.a = s.nextEdge.cmdA ∧
      t.b = s.nextEdge.cmdB ∧ t.m = s.nextEdge.cmdM ∧ t.rspStatus = s.rspStatus ∧ t.rspResult = s.rspResult ∧
      t.cfg = s.cfg ∧ t.work = { s.work with seq := .start } ∧ t.edges = s.edges.tail

/-- R29: DELIVER goes to IDLE and writes no other register; from then on no response is shown. -/
def Obligations.DeliverFreesTheBlock : Prop :=
  ∀ s : State, s.phase = .resp → s.nextEdge.rst = false → s.nextEdge.rspReady = true →
    ∃ t, step s = .next t ∧ t = { s.popEdge with phase := .idle } ∧
      t.rspStatusPort = none ∧ t.rspResultPort = none ∧ t.cmdReady = true

/-- R160: a reset edge goes to IDLE from every phase, whatever else the host drives; the parameters, and with them
the ROM, are not touched (R41). -/
def Obligations.ResetHasPriority : Prop :=
  ∀ s : State, s.nextEdge.rst = true →
    ∃ t, step s = .next t ∧ t.phase = .idle ∧ t.cmdReady = true ∧ t.rspValid = false ∧ t.cfg = s.cfg ∧
      t.edges = s.edges.tail

/-- R32: a step always has a next state, and its `PHASE` is the one in the table. 'Work finished' is `busyLeft = 0`,
the model's form of the free latency (log 4). -/
def Obligations.PhaseTransitionTable : Prop :=
  ∀ s : State, ∃ t, step s = .next t ∧
    t.phase = (if s.nextEdge.rst then .idle else match s.phase with
      | .idle => if s.nextEdge.cmdValid then .busy else .idle
      | .busy => if s.busyLeft = 0 then .resp else .busy
      | .resp => if s.nextEdge.rspReady then .idle else .resp)

/-- R30: the output ports follow `PHASE`, the response ports have a value exactly while a response is offered, and
they are stable until DELIVER or reset. -/
def Obligations.OutputsFollowThePhase : Prop :=
  ∀ s : State,
    (s.cmdReady = true ↔ s.phase = .idle) ∧ (s.rspValid = true ↔ s.phase = .resp) ∧
    (s.rspValid = true → s.rspStatusPort = some s.rspStatus ∧ s.rspResultPort = some s.rspResult) ∧
    (s.rspValid = false → s.rspStatusPort = none ∧ s.rspResultPort = none ∧ s.rspPort = none) ∧
    (s.phase = .busy → s.cmdReady = false ∧ s.rspValid = false) ∧
    (s.rspValid = true → s.nextEdge.rst = false → s.nextEdge.rspReady = false →
      ∃ t, step s = .next t ∧ t.rspStatusPort = s.rspStatusPort ∧ t.rspResultPort = s.rspResultPort)

/-- The columns 'written by' of R25 (R21, R23): without a reset, a step other than ACCEPT leaves the command latch
alone, and a step other than COMPLETE leaves the response registers alone. -/
def Obligations.OnlyTheNamedStepsWrite : Prop :=
  ∀ s t : State, step s = .next t → s.nextEdge.rst = false →
    ((s.phase ≠ .idle ∨ s.nextEdge.cmdValid = false) → t.op = s.op ∧ t.a = s.a ∧ t.b = s.b ∧ t.m = s.m) ∧
    ((s.phase ≠ .busy ∨ s.busyLeft ≠ 0) → t.rspStatus = s.rspStatus ∧ t.rspResult = s.rspResult)

/-- Without a reset, the working registers move only at an edge in BUSY whose work is not finished: every other step
leaves all thirteen as they are, and only ACCEPT sets the sequencer to its start. This is the model's choice and no
rule of the spec: R26 says only that the working registers are dead outside BUSY and fixes no value for them there, at
COMPLETE or at DELIVER (log 6, DESIGN CHOICE); that ACCEPT sets the sequencer is log 7's. -/
def Obligations.WorkingRegistersMoveOnlyInBusy : Prop :=
  ∀ s t : State, step s = .next t → s.nextEdge.rst = false → (s.phase ≠ .busy ∨ s.busyLeft = 0) →
    t.work = s.work ∨ (s.phase = .idle ∧ t.phase = .busy ∧ t.work = { s.work with seq := .start })

/-- No step writes the parameters or the witness ROM laid out from them, a reset included (R41). -/
def Obligations.ParametersAreConstant : Prop :=
  ∀ s t : State, step s = .next t → t.cfg = s.cfg ∧ wrom t.cfg.witnessTable = wrom s.cfg.witnessTable

/-- Right after reset the block is IDLE, ready for a command and offers no response (R33). The other values of
`State.reset` are the model's (log 1, log 2) and nothing is said of them. -/
def Obligations.ResetStateIsReady : Prop :=
  State.reset.phase = .idle ∧ State.reset.cmdReady = true ∧ State.reset.rspValid = false ∧
    State.reset.rspPort = none ∧ State.reset.cfg = defaultParams

/-- The placed command is the one the next step runs. The model's form of loading a command (log 9). -/
def Obligations.PlacedCommandRunsNext : Prop :=
  ∀ (s : State) (nbits w : Nat) (i : Instr), decodeTableWord nbits w = some i →
    step (s.withFetchWord nbits w) = exec i (s.withFetchWord nbits w).popEdge ∧
    (s.withFetchWord nbits w).popEdge.cfg = s.cfg

/-! ## MULMOD -/

/-- R80: MULMOD has operation code 0; for every modulus but 0 it answers OK and the exact product's residue, below
the modulus; for the modulus 0 it answers `ERR_MOD_ZERO` and 0; it writes the response registers and `PHASE` and
nothing else. -/
def Obligations.MulmodAnswersTheExactResidue : Prop :=
  ∀ (a b m : Word) (s : State),
    Cmd.op (encode (.mulmod a b m)) = 0 ∧
    (m ≠ 0 → ∃ r : Word,
      exec (.mulmod a b m) s = .next { s with rspStatus := 0, rspResult := r, phase := .resp } ∧
      r.toNat = a.toNat * b.toNat % m.toNat ∧ r.toNat < m.toNat) ∧
    (m = 0 → exec (.mulmod a b m) s = .next { s with rspStatus := 1, rspResult := 0, phase := .resp })

/-- R87: the pseudocode of `mulmod` returns the exact residue by whichever path, with the wide multiplier or without,
and each path does so by itself: the fast path with a product below 2^56, the wide path, and the double-and-add
loop. -/
def Obligations.MulmodPathsMeetTheContract : Prop :=
  ∀ m : Word, m ≠ 0 →
    (∀ (wide : Bool) (a b : Word), (mulmod wide a b m).toNat = a.toNat * b.toNat % m.toNat) ∧
    (∀ x y : Word, fitsFast x y = true →
      x.toNat * y.toNat < 2 ^ 56 ∧ (mulFast x y m).toNat = x.toNat * y.toNat % m.toNat) ∧
    (∀ x y : Word, (mulWide x y m).toNat = x.toNat * y.toNat % m.toNat) ∧
    (∀ x y : Word, x < m → (mulLoop m 64 0 x y).toNat = x.toNat * y.toNat % m.toNat)

/-- R84, R87: one round of the double-and-add loop keeps the residues and `r + x * y` modulo `m`, and the multiplier
`y` gets strictly smaller. -/
def Obligations.DoubleAndAddKeepsItsInvariant : Prop :=
  ∀ (cfg : Params) (op : BitVec 2) (a b m : Word) (w : Work) (c : MmCaller),
    w.seq = .mmLoop c → w.mmB ≠ 0 → w.MmResidues →
    let w' := microStep cfg op a b m w
    w'.seq = .mmLoop c ∧ w'.MmResidues ∧ w'.mmM = w.mmM ∧ w'.mmB < w.mmB ∧
      (w'.mmR.toNat + w'.mmA.toNat * w'.mmB.toNat) % w.mmM.toNat =
        (w.mmR.toNat + w.mmA.toNat * w.mmB.toNat) % w.mmM.toNat

/-- R85: the 65-bit sum does not overflow, `addmod` is the residue of the exact sum, and it equals the form that
needs 64 bits only. -/
def Obligations.AddmodIsExact : Prop :=
  ∀ x y m : Word, x < m → y < m →
    (x.setWidth 65 + y.setWidth 65).toNat = x.toNat + y.toNat ∧
    (addmod x y m).toNat = (x.toNat + y.toNat) % m.toNat ∧ addmod x y m < m ∧
    addmod x y m = if m - y ≤ x then x - (m - y) else x + y

/-- R86: no response of the block depends on `HAS_WIDE_MUL`. -/
def Obligations.WideMultiplierIsInvisible : Prop :=
  ∀ (t : List WitnessRow) (op : BitVec 2) (a b m : Word),
    execPair { hasWideMul := true, witnessTable := t } op a b m =
      execPair { hasWideMul := false, witnessTable := t } op a b m

/-- Corner cases of MULMOD (R88 a, b, f, g): a zero operand, the modulus 1, a modulus above 2^63 and both sides of
the fast path's boundary. -/
def Obligations.MulmodCornerCases : Prop :=
  (∀ (wide : Bool) (x m : Word), m ≠ 0 → mulmod wide 0 x m = 0 ∧ mulmod wide x 0 m = 0) ∧
  (∀ (wide : Bool) (a b : Word), mulmod wide a b 1 = 0) ∧
  mulmod false 0x8000000000000000 2 0x8000000000000001 = 0x7FFFFFFFFFFFFFFF ∧
  mulmod false 0xFFFFFFF 0xFFFFFFF 0xFFFFFFFFFFFFFFFF = 0x00FFFFFFE0000001 ∧
  mulmod false 0x10000000 0xFFFFFFF 0xFFFFFFFFFFFFFFFF = 0x00FFFFFFF0000000

/-! ## POWMOD -/

/-- R100: POWMOD has operation code 1; for every modulus but 0 it answers OK and the exact power's residue, below the
modulus (the 0-th power is 1 for every base); for the modulus 0 it answers `ERR_MOD_ZERO` and 0; it writes the
response registers and `PHASE` and nothing else. -/
def Obligations.PowmodAnswersTheExactPower : Prop :=
  ∀ (base exponent m : Word) (s : State),
    Cmd.op (encode (.powmod base exponent m)) = 1 ∧
    (m ≠ 0 → ∃ r : Word,
      exec (.powmod base exponent m) s = .next { s with rspStatus := 0, rspResult := r, phase := .resp } ∧
      r.toNat = base.toNat ^ exponent.toNat % m.toNat ∧ r.toNat < m.toNat) ∧
    (m = 0 → exec (.powmod base exponent m) s = .next { s with rspStatus := 1, rspResult := 0, phase := .resp })

/-- R101, R104: from any intermediate values of its loop variables the square-and-multiply loop computes
`r * x ^ e` modulo `m`, and rounds allowed beyond the exponent's length change nothing, so 64 are always enough. -/
def Obligations.SquareAndMultiplyLoopIsExact : Prop :=
  ∀ (wide : Bool) (n : Nat) (r x e m : Word), m ≠ 0 → r < m → e.toNat < 2 ^ n →
    (powLoop wide m n r x e).toNat = r.toNat * x.toNat ^ e.toNat % m.toNat ∧
    powLoop wide m (n + 1) r x e = powLoop wide m n r x e

/-- R102: exponent zero gives `1 mod m` for every base, 0 included; so 1 modulo 7 and 0 modulo 1. -/
def Obligations.ExponentZeroGivesOneModM : Prop :=
  (∀ (wide : Bool) (x m : Word), m ≠ 0 → (powmod wide x 0 m).toNat = 1 % m.toNat) ∧
  (∀ wide : Bool, powmod wide 5 0 7 = 1 ∧ powmod wide 0 0 7 = 1 ∧ powmod wide 5 0 1 = 0)

/-- Corner cases of POWMOD (R103 a, b, c, e, g): base zero, the modulus 1, a base that is reduced first, exponent one,
and the modulus 0 with exponent 0. -/
def Obligations.PowmodCornerCases : Prop :=
  (∀ (wide : Bool) (k m : Word), m ≠ 0 → k ≠ 0 → powmod wide 0 k m = 0) ∧
  (∀ (wide : Bool) (x k : Word), powmod wide x k 1 = 0) ∧
  (∀ (wide : Bool) (x k m : Word), m ≠ 0 → powmod wide x k m = powmod wide (x % m) k m) ∧
  (∀ (wide : Bool) (x m : Word), m ≠ 0 → powmod wide x 1 m = x % m) ∧
  (∀ (cfg : Params) (x : Word), execPair cfg 1 x 0 0 = (1, 0))

/-! ## ISPRIME -/

/-- R110, R67, R70: ISPRIME completes for every operand with the answer of the procedure `isprime`, 1 for prime, 0
for not prime, `ERR_RANGE` with 0 for out of range, and writes nothing but the response registers and `PHASE`. -/
def Obligations.IsprimeAnswersTheVerdict : Prop :=
  ∀ (p b m : Word) (s : State), ∃ st r,
    exec (.isprime p b m) s = .next { s with rspStatus := st, rspResult := r, phase := .resp } ∧
    (isprime s.cfg p = .prime → st = 0 ∧ r = 1) ∧ (isprime s.cfg p = .notPrime → st = 0 ∧ r = 0) ∧
    (isprime s.cfg p = .outOfRange → st = 3 ∧ r = 0)

/-- R63: the fields b and m are latched and never read: the response does not depend on them, the modulus 0 is no
fault, and the command syntax writes 0 into both. -/
def Obligations.IsprimeIgnoresFieldsBAndM : Prop :=
  ∀ (p b m b' m' : Word) (s : State) (cfg : Params),
    exec (.isprime p b m) s = exec (.isprime p b' m') s ∧ execPair cfg 2 p b m = execPair cfg 2 p b' m' ∧
    (execPair cfg 2 p b 0).1 ≠ 1 ∧ Cmd.b (assembleIsprime p) = 0 ∧ Cmd.m (assembleIsprime p) = 0 ∧
    (∀ (u : State) (e : Edge), e.cmdB = b → e.cmdM = m → (u.accept e).b = b ∧ (u.accept e).m = m)

/-- R121: steps 1 to 3 are correct without any assumption: below 31, at a trial divisor and below 323 the answer is
primality, whatever the table. -/
def Obligations.FirstThreeStepsAreCorrect : Prop :=
  ∀ (cfg : Params) (p : Word),
    (p.toNat < 31 ∨ (∃ q ∈ trialPrimes, q.toNat ∣ p.toNat) ∨ p.toNat < 323) →
    (isprime cfg p = .prime ↔ Nat.Prime p.toNat) ∧ (isprime cfg p = .notPrime ↔ ¬ Nat.Prime p.toNat)

/-- R114: the selected row is the least one whose bound exceeds `p`; no row is selected exactly when no bound does;
and on the ROM the bound is compared through `PMAX`. -/
def Obligations.LeastServingRowIsSelected : Prop :=
  ∀ (t : List WitnessRow) (p : Word),
    (∀ r, selectRow t p = some r ↔
      ∃ k, t[k]? = some r ∧ p.toNat < r.bound ∧ ∀ (j : Nat) (r' : WitnessRow), j < k → t[j]? = some r' → ¬ p.toNat < r'.bound) ∧
    (selectRow t p = none ↔ ∀ r ∈ t, r.bound ≤ p.toNat) ∧
    (∀ r, r.wf = true → (p.toNat < r.bound ↔ p ≤ WitnessRow.pmax r))

/-- R116: the decomposition of `p - 1` at step 5 is exact, with `d` odd and `s` from 1 to 63. -/
def Obligations.DecompositionIsExact : Prop :=
  ∀ p : Word, 323 ≤ p.toNat → p.toNat % 2 = 1 →
    let d := (decompose 64 (p - 1) 0).1
    let s := (decompose 64 (p - 1) 0).2
    d.toNat % 2 = 1 ∧ d.toNat * 2 ^ s = p.toNat - 1 ∧ 1 ≤ s ∧ s ≤ 63 ∧ 1 ≤ d.toNat ∧ d.toNat < 2 ^ 63

/-- R117: a witness is satisfied exactly when the strong-pseudoprime condition holds of the powers themselves: the
first one is 1, or one of the `s` successive squares is `p - 1`. -/
def Obligations.WitnessTestIsTheStrongTest : Prop :=
  ∀ (wide : Bool) (p d v : Word) (s : Nat), 3 ≤ p.toNat → 1 ≤ s →
    (satisfied wide p d s v = true ↔
      (v.toNat ^ d.toNat % p.toNat = 1 ∨ ∃ i, i < s ∧ v.toNat ^ (d.toNat * 2 ^ i) % p.toNat = p.toNat - 1))

/-- With the default table a prime is never rejected and ISPRIME never faults: it answers OK with 1 or 0, and 1 for
every prime (R110, R115, half (a) of R120, which is proved here and not assumed). -/
def Obligations.PrimesAreNeverRejected : Prop :=
  ∀ (p b m : Word) (s : State), s.cfg.witnessTable = defaultTable →
    ∃ r : Word, exec (.isprime p b m) s = .next { s with rspStatus := 0, rspResult := r, phase := .resp } ∧
      (r = 0 ∨ r = 1) ∧ (Nat.Prime p.toNat → r = 1)

/-- Under the named assumption on the table the answer is primality below `TOP_BOUND`; at or above it the answer is
correct or out of range (R120, R121). The assumption is a hypothesis, as the spec asks. -/
def Obligations.ValidTableDecidesPrimality : Prop :=
  ∀ cfg : Params, cfg.wf = true → WitnessTableValid cfg → ∀ p : Word,
    (p.toNat < topBound cfg.witnessTable →
      (isprime cfg p = .prime ↔ Nat.Prime p.toNat) ∧ (isprime cfg p = .notPrime ↔ ¬ Nat.Prime p.toNat)) ∧
    (topBound cfg.witnessTable ≤ p.toNat →
      isprime cfg p = .outOfRange ∨ (isprime cfg p = .prime ∧ Nat.Prime p.toNat) ∨
        (isprime cfg p = .notPrime ∧ ¬ Nat.Prime p.toNat))

/-- R115, R144: ISPRIME answers `ERR_RANGE` exactly for the operands at or above `TOP_BOUND` that steps 1 to 3 leave
undecided; the default table leaves none. -/
def Obligations.RangeFaultExactlyBeyondTheTable : Prop :=
  (∀ (p b m : Word) (s : State), s.cfg.wf = true →
    ((topBound s.cfg.witnessTable ≤ p.toNat ∧ 323 ≤ p.toNat ∧ ∀ q ∈ trialPrimes, ¬ q.toNat ∣ p.toNat) →
      exec (.isprime p b m) s = .next { s with rspStatus := 3, rspResult := 0, phase := .resp }) ∧
    (¬ (topBound s.cfg.witnessTable ≤ p.toNat ∧ 323 ≤ p.toNat ∧ ∀ q ∈ trialPrimes, ¬ q.toNat ∣ p.toNat) →
      ∃ r : Word, exec (.isprime p b m) s = .next { s with rspStatus := 0, rspResult := r, phase := .resp } ∧
        (r = 0 ∨ r = 1))) ∧
  (∀ p : Word, p.toNat < topBound defaultTable)

/-- Corner cases of ISPRIME with the default table (R122 a, b, c, d, g and the first of h): both ends of step 1, the
floor, the first numbers to reach step 4, the boundary of row 0, the early exit at 1, and the largest operand. -/
def Obligations.IsprimeCornerCases : Prop :=
  (isprime defaultParams 0 = .notPrime ∧ isprime defaultParams 1 = .notPrime ∧ isprime defaultParams 2 = .prime) ∧
  (isprime defaultParams 30 = .notPrime ∧ isprime defaultParams 31 = .prime) ∧
  (isprime defaultParams 322 = .notPrime ∧ isprime defaultParams 323 = .notPrime ∧
    isprime defaultParams 331 = .prime ∧ isprime defaultParams 361 = .notPrime) ∧
  (isprime defaultParams 2047 = .notPrime ∧
    isprime { hasWideMul := false, witnessTable := [⟨2 ^ 64, [2]⟩] } 2047 = .prime) ∧
  isprime defaultParams 5461 = .notPrime ∧ isprime defaultParams 0xFFFFFFFFFFFFFFFF = .notPrime

/-! ## The witness ROM -/

/-- R42: row 0 stands at address 0, the words of every row stand where the layout says, and the ROM ends after the last
row; outside it there is no word (R43). -/
def Obligations.RomLayoutIsTheTable : Prop :=
  ∀ t : List WitnessRow,
    rowAddr t 0 = 0 ∧ (wrom t).length = rowAddr t t.length ∧ (∀ addr, romRead t addr = none ↔ rowAddr t t.length ≤ addr) ∧
    ∀ (k : Nat) (r : WitnessRow), t[k]? = some r →
      romRead t (rowAddr t k) = some (BitVec.ofNat 64 (r.bound - 1)) ∧
      (∀ (i : Nat) (v : Word), r.witnesses[i]? = some v → romRead t (rowAddr t k + 1 + i) = some v) ∧
      romRead t (rowAddr t k + 1 + r.witnesses.length) = some 0 ∧
      rowAddr t (k + 1) = rowAddr t k + r.witnesses.length + 2

/-- Part (a) of R52: the bound of each of the rows 0 to 7 of the default table is composite, satisfies every witness of
its own row, and is rejected by the last witness of the next row. -/
def Obligations.DefaultBoundsAreTight : Prop :=
  ∀ (wide : Bool) (k : Nat), k < 8 → ∃ r r' last, defaultTable[k]? = some r ∧ defaultTable[k + 1]? = some r' ∧
    r'.witnesses.getLast? = some last ∧ ¬ Nat.Prime r.bound ∧
    let p : Word := BitVec.ofNat 64 r.bound
    let ds := decompose 64 (p - 1) 0
    (∀ v ∈ r.witnesses, satisfied wide p ds.1 ds.2 v = true) ∧ satisfied wide p ds.1 ds.2 last = false

/-! ## The units at register level -/

/-- The register-level machine refines `Exec`: from the start of any command, with any contents of the working
registers and any well-formed table, finitely many micro-steps finish the work with exactly the pair that COMPLETE
answers (R28, R70, R87, R104, R119, R166). -/
def Obligations.SequencerComputesExec : Prop :=
  ∀ (cfg : Params) (op : BitVec 2) (a b m : Word) (w : Work), cfg.wf = true → w.seq = .start →
    ∃ n, (microRun cfg op a b m n w).seq = .done (execPair cfg op a b m).1 (execPair cfg op a b m).2

/-- The row search and the witness walk never ask for a word outside the ROM (R43). It is about the words that are read:
the address kept in `PT_WA` after the last row is log 13's. -/
def Obligations.SequencerStaysInTheRom : Prop :=
  ∀ (cfg : Params) (op : BitVec 2) (a b m : Word) (w : Work) (n : Nat), cfg.wf = true → w.seq = .start →
    (microRun cfg op a b m n w).seq ≠ .noWord

/-- While a command is worked on, the working registers are always on the way from its start: every step keeps it
(R26). -/
def Obligations.WorkInvariantIsKept : Prop :=
  ∀ s t : State, s.WorkInv → step s = .next t → t.WorkInv

/-- In a state on that way, a sequencer that has finished holds the answer the command is owed (R26, R28). -/
def Obligations.FinishedWorkIsTheAnswer : Prop :=
  ∀ (s : State) (st : BitVec 2) (r : Word), s.WorkInv → s.cfg.wf = true → s.phase = .busy →
    s.work.seq = .done st r → (st, r) = s.answer

/-! ## The whole machine -/

/-- A response that is offered is `Exec` of the command in the latch: every step keeps it (R28, R47 (a)). -/
def Obligations.ResponseInvariantIsKept : Prop :=
  ∀ s t : State, s.RespInv → step s = .next t → t.RespInv

/-- Both invariants hold right after reset. -/
def Obligations.InvariantsHoldAtReset : Prop :=
  State.reset.RespInv ∧ State.reset.WorkInv

/-- R169, R31, R47: what the host sees is commands and responses in turn, each response `Exec` of the command before
it, and a reset drops the command in the block (R161). -/
def Obligations.EveryResponseAnswersItsCommand : Prop :=
  ∀ (n : Nat) (s : State), s.RespInv → AnsweredInOrder s.cfg s.outstanding (trace n s)

/-- R7, R47 (c), R147: nothing an earlier command left behind, a fault included, and nothing in a working register
reaches the host: two states that differ only in dead registers show the same events for ever. -/
def Obligations.DeadRegistersAreInvisible : Prop :=
  ∀ (n : Nat) (s t : State), SameToTheHost s t → trace n s = trace n t

/-- R166: with no reset at the next edges, a command in the block is answered after exactly the edges its latency
asks for, with `Exec` of that command, and the latch still holds it. -/
def Obligations.EveryCommandCompletes : Prop :=
  ∀ s : State, s.phase = .busy → s.busyLeft < s.edges.length →
    (∀ e ∈ s.edges.take (s.busyLeft + 1), e.rst = false) →
    ∃ t, Sys2Proof.core.run (s.busyLeft + 1) s = .next t ∧ State.phase t = .resp ∧
      (State.rspStatus t, State.rspResult t) = s.answer ∧ State.latchCmd t = s.latchCmd ∧ State.cfg t = s.cfg

/-- The frame of every instruction (R80, R100, R110: state written): what is not `RSP_STATUS`, `RSP_RESULT` or `PHASE`
is unchanged, and `PHASE` is RESP. -/
def Obligations.InstructionsWriteOnlyTheResponse : Prop :=
  ∀ (i : Instr) (s t : State), exec i s = .next t →
    t = { s with rspStatus := t.rspStatus, rspResult := t.rspResult, phase := .resp }

/-- R146: a response whose status is not OK carries result 0, whatever the command. -/
def Obligations.FaultsCarryResultZero : Prop :=
  ∀ (cfg : Params) (op : BitVec 2) (a b m : Word),
    (execPair cfg op a b m).1 ≠ 0 → (execPair cfg op a b m).2 = 0
end

