-- ==== Sys2Proof/Laws/Arith.lean ====
section
/-! SUPPORT. The arithmetic of MM and ME meets its contract (40_mulmod.md R87, 41_powmod.md R104): one lemma per
function, saying what number it returns. The loops are handled by their invariants. -/

namespace Sys2Proof.Machine


/-- `addmod` is the exact sum's residue (R85). -/
theorem addmod_toNat {x y m : Word} (hx : x < m) (hy : y < m) :
    (addmod x y m).toNat = (x.toNat + y.toNat) % m.toNat := by
  have hx' : x.toNat < m.toNat := hx
  have hy' : y.toNat < m.toNat := hy
  have hm : m.toNat < 2 ^ 64 := m.isLt
  unfold addmod
  simp only [BitVec.le_def, BitVec.toNat_add, BitVec.toNat_setWidth]
  split
  · next h =>
    rw [BitVec.toNat_setWidth, BitVec.toNat_sub, BitVec.toNat_add]
    simp only [BitVec.toNat_setWidth]
    have e : (x.toNat + y.toNat) % m.toNat = x.toNat + y.toNat - m.toNat := by
      rw [Nat.mod_eq_sub_mod (by omega), Nat.mod_eq_of_lt (by omega)]
    omega
  · next h =>
    rw [BitVec.toNat_setWidth, BitVec.toNat_add]
    simp only [BitVec.toNat_setWidth]
    have e : (x.toNat + y.toNat) % m.toNat = x.toNat + y.toNat := Nat.mod_eq_of_lt (by omega)
    omega

/-- `addmod` is a residue (R85). -/
theorem addmod_lt {x y m : Word} (hx : x < m) (hy : y < m) : addmod x y m < m := by
  have h := addmod_toNat hx hy
  have hx' : x.toNat < m.toNat := hx
  rw [BitVec.lt_def, h]
  exact Nat.mod_lt _ (by omega)

/-- A word is twice its half plus its low bit (R89 (f)). -/
theorem toNat_low_bit (y : Word) : y.toNat = 2 * (y >>> 1).toNat + (y.getLsbD 0).toNat := by
  simp only [BitVec.toNat_ushiftRight, BitVec.getLsbD, Nat.testBit_zero, Nat.shiftRight_one]
  rcases Nat.mod_two_eq_zero_or_one y.toNat with h | h <;> simp [h] <;> omega

/-- The accumulator stays a residue (R84). -/
theorem mulAcc_lt {r x y m : Word} (hr : r < m) (hx : x < m) : mulAcc r x y m < m := by
  unfold mulAcc; split
  · exact addmod_lt hr hx
  · exact hr

/-- One accumulation adds `x` when the low bit of `y` is set (R84). -/
theorem mulAcc_toNat {r x y m : Word} (hr : r < m) (hx : x < m) :
    (mulAcc r x y m).toNat = (r.toNat + (y.getLsbD 0).toNat * x.toNat) % m.toNat := by
  unfold mulAcc
  cases h : y.getLsbD 0
  · simpa using (Nat.mod_eq_of_lt hr).symm
  · simpa using addmod_toNat hr hx

/-- The double-and-add loop keeps `r + x * y` modulo `m` (R87). -/
theorem mulLoop_toNat {m : Word} : ∀ (n : Nat) (r x y : Word), r < m → x < m → y.toNat < 2 ^ n →
    (mulLoop m n r x y).toNat = (r.toNat + x.toNat * y.toNat) % m.toNat
  | 0, r, x, y, hr, _, hy => by
    have : y.toNat = 0 := by omega
    simpa [mulLoop, this] using (Nat.mod_eq_of_lt hr).symm
  | n + 1, r, x, y, hr, hx, hy => by
    unfold mulLoop
    split
    · next h => subst h; simpa using (Nat.mod_eq_of_lt hr).symm
    · have hb := toNat_low_bit y
      have hlt : (y >>> 1).toNat < 2 ^ n := by
        rw [pow_succ] at hy; omega
      rw [mulLoop_toNat n _ _ _ (mulAcc_lt hr hx) (addmod_lt hx hx) hlt, mulAcc_toNat hr hx, addmod_toNat hx hx]
      conv_rhs => rw [hb]
      simp only [Nat.add_mod, Nat.mul_mod, Nat.mod_mod]
      simp only [← Nat.add_mod, ← Nat.mul_mod]
      congr 1
      ring

/-- Step 1 of MULMOD gives a residue (R82). -/
theorem mod_lt_of_ne {a m : Word} (hm : m ≠ 0) : a % m < m := by
  rw [BitVec.lt_def, BitVec.toNat_umod]
  exact Nat.mod_lt _ (by have := BitVec.toNat_ne.mp hm; simpa [Nat.pos_iff_ne_zero] using this)

/-- The fast path does not overflow (R83). -/
theorem mulFast_toNat {x y m : Word} (h : fitsFast x y = true) :
    (mulFast x y m).toNat = x.toNat * y.toNat % m.toNat := by
  simp only [fitsFast, Bool.and_eq_true, decide_eq_true_eq, BitVec.le_def] at h
  have hf : fastMax.toNat = 268435455 := rfl
  rw [hf] at h
  have : x.toNat * y.toNat ≤ 268435455 * 268435455 := Nat.mul_le_mul h.1 h.2
  rw [mulFast, BitVec.toNat_umod, BitVec.toNat_mul,
    Nat.mod_eq_of_lt (a := x.toNat * y.toNat) (b := 2 ^ 64) (by omega)]

/-- The wide path does not overflow (R86). -/
theorem mulWide_toNat {x y m : Word} (hm : m ≠ 0) :
    (mulWide x y m).toNat = x.toNat * y.toNat % m.toNat := by
  have h1 : x.toNat * y.toNat < 2 ^ 128 :=
    lt_of_lt_of_eq (Nat.mul_lt_mul'' x.isLt y.isLt) (by norm_num)
  have h2 : x.toNat * y.toNat % m.toNat < 2 ^ 64 :=
    (Nat.mod_lt _ (by have := BitVec.toNat_ne.mp hm; simpa [Nat.pos_iff_ne_zero] using this)).trans m.isLt
  have e (z : Word) : z.toNat % 2 ^ 128 = z.toNat := Nat.mod_eq_of_lt (by have := z.isLt; omega)
  simp only [mulWide, BitVec.toNat_setWidth, BitVec.toNat_umod, BitVec.toNat_mul, e]
  rw [Nat.mod_eq_of_lt h1, Nat.mod_eq_of_lt h2]

/-- The contract of `mulmod` by whichever path (R80, R87). -/
theorem mulmod_toNat (wide : Bool) {a b m : Word} (hm : m ≠ 0) :
    (mulmod wide a b m).toNat = a.toNat * b.toNat % m.toNat := by
  have hpos : 0 < m.toNat := by have := BitVec.toNat_ne.mp hm; simpa [Nat.pos_iff_ne_zero] using this
  simp only [mulmod]
  split
  · next h => rw [mulFast_toNat h]; simp [BitVec.toNat_umod]
  · split
    · rw [mulWide_toNat hm]; simp [BitVec.toNat_umod]
    · rw [mulLoop_toNat 64 _ _ _ (by rw [BitVec.lt_def]; simpa using hpos) (mod_lt_of_ne hm) (BitVec.isLt _)]
      simp [BitVec.toNat_umod]

/-- `mulmod` is a residue (R89 (c)). -/
theorem mulmod_lt (wide : Bool) {a b m : Word} (hm : m ≠ 0) : mulmod wide a b m < m := by
  rw [BitVec.lt_def, mulmod_toNat wide hm]
  exact Nat.mod_lt _ (by have := BitVec.toNat_ne.mp hm; simpa [Nat.pos_iff_ne_zero] using this)

/-- Square-and-multiply keeps `r * x ^ e` modulo `m` (R104). -/
theorem powLoop_toNat (wide : Bool) {m : Word} (hm : m ≠ 0) : ∀ (n : Nat) (r x e : Word), r < m → e.toNat < 2 ^ n →
    (powLoop wide m n r x e).toNat = r.toNat * x.toNat ^ e.toNat % m.toNat
  | 0, r, x, e, hr, he => by
    have : e.toNat = 0 := by omega
    simpa [powLoop, this] using (Nat.mod_eq_of_lt hr).symm
  | n + 1, r, x, e, hr, he => by
    unfold powLoop
    split
    · next h => subst h; simpa using (Nat.mod_eq_of_lt hr).symm
    · have hb := toNat_low_bit e
      have hlt : (e >>> 1).toNat < 2 ^ n := by
        rw [pow_succ] at he; omega
      have hr' : (if e.getLsbD 0 then mulmod wide r x m else r) < m := by
        split
        · exact mulmod_lt wide hm
        · exact hr
      have hrv : (if e.getLsbD 0 then mulmod wide r x m else r).toNat
          = r.toNat * x.toNat ^ (e.getLsbD 0).toNat % m.toNat := by
        cases h : e.getLsbD 0
        · simpa using (Nat.mod_eq_of_lt hr).symm
        · simpa using mulmod_toNat wide hm
      rw [powLoop_toNat wide hm n _ _ _ hr' hlt, hrv, mulmod_toNat wide hm]
      conv_rhs => rw [hb]
      rw [Nat.mul_mod, Nat.mod_mod, Nat.pow_mod, Nat.mod_mod, ← Nat.pow_mod, ← Nat.mul_mod, pow_add, pow_mul]
      ring_nf

/-- The contract of `powmod` (R100, R104). -/
theorem powmod_toNat (wide : Bool) {a e m : Word} (hm : m ≠ 0) :
    (powmod wide a e m).toNat = a.toNat ^ e.toNat % m.toNat := by
  unfold powmod
  rw [powLoop_toNat wide hm 64 _ _ _ (mod_lt_of_ne hm) e.isLt]
  simp only [BitVec.toNat_umod]
  rw [Nat.mul_mod, Nat.mod_mod, Nat.pow_mod, Nat.mod_mod, ← Nat.pow_mod, ← Nat.mul_mod]
  simp
end Sys2Proof.Machine
end

