-- ==== Sys2Proof/Laws/Decode.lean ====
section
/-! SUPPORT. The command word as a number and its fields (R60). -/

namespace Sys2Proof

/-- The command word as a number (R60). -/
theorem Cmd.toNat_ofFields (op : BitVec 2) (a b m : Word) :
    (Cmd.ofFields op a b m).toNat = op.toNat * 2 ^ 192 + a.toNat * 2 ^ 128 + b.toNat * 2 ^ 64 + m.toNat := by
  simp only [Cmd.ofFields, BitVec.toNat_append]
  rw [← Nat.shiftLeft_add_eq_or_of_lt a.isLt, ← Nat.shiftLeft_add_eq_or_of_lt b.isLt,
    ← Nat.shiftLeft_add_eq_or_of_lt m.isLt]
  simp only [Nat.shiftLeft_eq]
  ring

theorem Cmd.toNat_op (w : Cmd) : (Cmd.op w).toNat = w.toNat / 2 ^ 192 % 2 ^ 2 := by
  simp [Cmd.op, BitVec.extractLsb', Nat.shiftRight_eq_div_pow]

theorem Cmd.toNat_a (w : Cmd) : (Cmd.a w).toNat = w.toNat / 2 ^ 128 % 2 ^ 64 := by
  simp [Cmd.a, BitVec.extractLsb', Nat.shiftRight_eq_div_pow]

theorem Cmd.toNat_b (w : Cmd) : (Cmd.b w).toNat = w.toNat / 2 ^ 64 % 2 ^ 64 := by
  simp [Cmd.b, BitVec.extractLsb', Nat.shiftRight_eq_div_pow]

theorem Cmd.toNat_m (w : Cmd) : (Cmd.m w).toNat = w.toNat % 2 ^ 64 := by
  simp [Cmd.m, BitVec.extractLsb']

/-- The fields of an assembled command word are the fields it was assembled from. -/
theorem Cmd.op_ofFields (op : BitVec 2) (a b m : Word) : Cmd.op (Cmd.ofFields op a b m) = op := by
  apply BitVec.eq_of_toNat_eq
  rw [Cmd.toNat_op, Cmd.toNat_ofFields]
  have := op.isLt; have := a.isLt; have := b.isLt; have := m.isLt
  omega

theorem Cmd.a_ofFields (op : BitVec 2) (a b m : Word) : Cmd.a (Cmd.ofFields op a b m) = a := by
  apply BitVec.eq_of_toNat_eq
  rw [Cmd.toNat_a, Cmd.toNat_ofFields]
  have := op.isLt; have := a.isLt; have := b.isLt; have := m.isLt
  omega

theorem Cmd.b_ofFields (op : BitVec 2) (a b m : Word) : Cmd.b (Cmd.ofFields op a b m) = b := by
  apply BitVec.eq_of_toNat_eq
  rw [Cmd.toNat_b, Cmd.toNat_ofFields]
  have := op.isLt; have := a.isLt; have := b.isLt; have := m.isLt
  omega

theorem Cmd.m_ofFields (op : BitVec 2) (a b m : Word) : Cmd.m (Cmd.ofFields op a b m) = m := by
  apply BitVec.eq_of_toNat_eq
  rw [Cmd.toNat_m, Cmd.toNat_ofFields]
  have := op.isLt; have := a.isLt; have := b.isLt; have := m.isLt
  omega

/-- A command word is assembled from its own fields (R60). -/
theorem Cmd.ofFields_fields (w : Cmd) : Cmd.ofFields (Cmd.op w) (Cmd.a w) (Cmd.b w) (Cmd.m w) = w := by
  apply BitVec.eq_of_toNat_eq
  rw [Cmd.toNat_ofFields, Cmd.toNat_op, Cmd.toNat_a, Cmd.toNat_b, Cmd.toNat_m]
  have := w.isLt
  omega

/-- Decoding an assembled word looks at the fields alone. -/
theorem decode_ofFields (op : BitVec 2) (a b m : Word) :
    decode (Cmd.ofFields op a b m) = decodeFields op a b m := by
  rw [decode, Cmd.op_ofFields, Cmd.a_ofFields, Cmd.b_ofFields, Cmd.m_ofFields]

/-- The match value of an operation code as a number (R61). -/
theorem toNat_opMatch (op : BitVec 2) : (opMatch op).toNat = op.toNat * 2 ^ 192 := by
  have := op.isLt
  simp only [opMatch, BitVec.toNat_shiftLeft, BitVec.toNat_setWidth, Nat.shiftLeft_eq]
  omega

/-- Masking a command word leaves its operation code (R61). -/
theorem and_opMask (w : Cmd) : w &&& opMask = opMatch (Cmd.op w) := by
  apply BitVec.eq_of_toNat_eq
  have hm : opMask.toNat = (2 ^ 2 - 1) <<< 192 := by decide
  rw [BitVec.toNat_and, hm, toNat_opMatch, Cmd.toNat_op]
  have e : w.toNat = (w.toNat / 2 ^ 192) <<< 192 + w.toNat % 2 ^ 192 := by
    rw [Nat.shiftLeft_eq]; omega
  have hlt : w.toNat % 2 ^ 192 < 2 ^ 192 := Nat.mod_lt _ (by norm_num)
  conv_lhs => rw [e]
  rw [Nat.shiftLeft_add_eq_or_of_lt hlt, Nat.and_or_distrib_right, ← Nat.shiftLeft_and_distrib,
    Nat.and_two_pow_sub_one_eq_mod]
  have h0 : w.toNat % 2 ^ 192 &&& (2 ^ 2 - 1) <<< 192 = 0 := by
    apply Nat.eq_of_testBit_eq
    intro i
    rw [Nat.testBit_and, Nat.testBit_mod_two_pow, Nat.testBit_shiftLeft]
    by_cases h : i < 192
    · simp [show ¬ 192 ≤ i by omega]
    · simp [h]
  rw [h0, Nat.or_zero, Nat.shiftLeft_eq]

end Sys2Proof
end

