-- ==== Sys2Proof/Laws/Isprime.lean ====
section
/-! SUPPORT. What the steps of ISPRIME compute (42_isprime.md R111, R112, R116, R117) and why a prime passes them
(R120 half (a)). -/

namespace Sys2Proof.Machine

/-- The shift count of step 5 is bounded by the shifts allowed (R116). -/
theorem decompose_le : ∀ (n : Nat) (d : Word) (s : Nat), (decompose n d s).2 ≤ s + n
  | 0, d, s => by simp [decompose]
  | n + 1, d, s => by
    unfold decompose; split
    · simp
    · have := decompose_le n (d >>> 1) (s + 1); omega

/-- Step 5 (R116): an odd part and a power of two, whose product is the number decomposed. -/
theorem decompose_spec : ∀ (n : Nat) (d : Word) (s : Nat), d ≠ 0 → d.toNat < 2 ^ n →
    (decompose n d s).1.toNat % 2 = 1 ∧ s ≤ (decompose n d s).2 ∧
      (decompose n d s).1.toNat * 2 ^ ((decompose n d s).2 - s) = d.toNat
  | 0, d, s, h0, hb => absurd (BitVec.eq_of_toNat_eq (by simpa using hb)) h0
  | n + 1, d, s, h0, hb => by
    have hl := toNat_low_bit d
    unfold decompose
    split
    · next h => rw [h] at hl; simp at hl ⊢; omega
    · next h =>
      simp only [Bool.not_eq_true] at h
      rw [h] at hl; simp only [Bool.toNat_false, Nat.add_zero] at hl
      have hne : d.toNat ≠ 0 := by simpa using BitVec.toNat_ne.mp h0
      obtain ⟨h1, h2, h3⟩ := decompose_spec n (d >>> 1) (s + 1)
        (by intro hc; rw [hc] at hl; simp at hl; exact hne (by simp [hl])) (by rw [pow_succ] at hb; omega)
      refine ⟨h1, by omega, ?_⟩
      rw [hl, ← h3]
      have : (decompose n (d >>> 1) (s + 1)).2 - s = (decompose n (d >>> 1) (s + 1)).2 - (s + 1) + 1 := by omega
      rw [this, pow_succ]; ring

/-- A trial division hits when the trial prime divides `p` and is not `p` (R112). -/
theorem trialHit_iff {p q : Word} : trialHit p q = true ↔ q.toNat ∣ p.toNat ∧ p ≠ q := by
  simp only [trialHit, Bool.and_eq_true, decide_eq_true_eq]
  refine and_congr_left fun _ => ?_
  rw [← BitVec.toNat_inj, BitVec.toNat_umod, Nat.dvd_iff_mod_eq_zero]
  simp

/-- Modulo a prime 1 has only the square roots 1 and `p - 1` (R120 (a)). -/
theorem sqrt_one {p x : Nat} (hp : p.Prime) (hx : x < p) (h : x * x % p = 1 % p) : x = 1 ∨ x = p - 1 := by
  have hp2 := hp.two_le
  rw [Nat.mod_eq_of_lt (a := 1) hp2] at h
  have hx0 : x ≠ 0 := by rintro rfl; simp at h
  have hd : p ∣ (x - 1) * (x + 1) := by
    have e : (x - 1) * (x + 1) = x * x - 1 := by
      obtain ⟨y, rfl⟩ := Nat.exists_eq_succ_of_ne_zero hx0
      simp only [Nat.succ_eq_add_one, Nat.add_sub_cancel]
      ring_nf; omega
    rw [e]
    exact (Nat.modEq_iff_dvd' (by nlinarith [Nat.pos_of_ne_zero hx0])).mp (by rw [Nat.ModEq, h, Nat.mod_eq_of_lt hp2])
  rcases hp.dvd_mul.mp hd with h | h
  · left; have := Nat.eq_zero_of_dvd_of_lt h (by omega); omega
  · right; have := Nat.le_of_dvd (by omega) h; omega

theorem sub_one_toNat {p : Word} (hp : p ≠ 0) : (p - 1).toNat = p.toNat - 1 := by
  have : p.toNat ≠ 0 := by simpa using BitVec.toNat_ne.mp hp
  have := p.isLt
  rw [BitVec.toNat_sub]; simp; omega

/-- The squarings of a prime reach `p - 1` before 1 (R120 (a)). -/
theorem squareLoop_of_prime (wide : Bool) {p : Word} (hp : p.toNat.Prime) : ∀ (n : Nat) (x : Word), x < p →
    x ≠ 1 → x ≠ p - 1 → x.toNat ^ 2 ^ (n + 1) % p.toNat = 1 → squareLoop wide p n x = true := by
  have hp0 : p ≠ 0 := by rintro rfl; exact absurd hp (by decide)
  have h2 := hp.two_le
  have key (x : Word) (hx : x < p) (h1 : x ≠ 1) (hm : x ≠ p - 1) : (mulmod wide x x p) ≠ 1 := by
    intro h
    have := congrArg BitVec.toNat h
    rw [mulmod_toNat wide hp0] at this
    rcases sqrt_one hp hx (by rw [this, Nat.mod_eq_of_lt h2]; rfl) with h | h
    · exact h1 (BitVec.eq_of_toNat_eq h)
    · exact hm (BitVec.eq_of_toNat_eq (by rw [sub_one_toNat hp0]; exact h))
  intro n
  induction n with
  | zero =>
    intro x hx h1 hm h
    refine absurd ?_ (key x hx h1 hm)
    apply BitVec.eq_of_toNat_eq
    rw [mulmod_toNat wide hp0]
    simpa [pow_two] using h
  | succ n ih =>
    intro x hx h1 hm h
    simp only [squareLoop]
    rw [if_neg (key x hx h1 hm)]
    split
    · rfl
    · next hne =>
      refine ih _ (mulmod_lt wide hp0) (key x hx h1 hm) hne ?_
      rw [mulmod_toNat wide hp0, ← Nat.pow_mod, ← pow_two, ← pow_mul, ← pow_succ']
      exact h

/-- A prime satisfies every witness it does not divide (R120 (a)). -/
theorem satisfied_of_prime (wide : Bool) {p d v : Word} {s : Nat} (hp : p.toNat.Prime) (hs : s ≠ 0)
    (hd : d.toNat * 2 ^ s = p.toNat - 1) (hv : ¬ p.toNat ∣ v.toNat) : satisfied wide p d s v = true := by
  have hp0 : p ≠ 0 := by rintro rfl; exact absurd hp (by decide)
  simp only [satisfied]
  split
  · rfl
  · next h =>
    push Not at h
    obtain ⟨k, rfl⟩ := Nat.exists_eq_succ_of_ne_zero hs
    refine squareLoop_of_prime wide hp k _ ?_ h.1 h.2 ?_
    · rw [BitVec.lt_def, powmod_toNat wide hp0]; exact Nat.mod_lt _ hp.pos
    · rw [powmod_toNat wide hp0, ← Nat.pow_mod, ← pow_mul, hd]
      have := Nat.ModEq.pow_totient ((Nat.coprime_comm.mp ((Nat.Prime.coprime_iff_not_dvd hp).mpr hv)))
      rw [Nat.totient_prime hp, Nat.ModEq, Nat.mod_eq_of_lt hp.one_lt] at this
      exact this

/-- A prime passes steps 5 to 7 (R120 (a)). -/
theorem strongTest_of_prime (wide : Bool) {p : Word} (ws : List Word) (hp : p.toNat.Prime) (h3 : 3 ≤ p.toNat)
    (hw : ∀ v ∈ ws, ¬ p.toNat ∣ v.toNat) : strongTest wide p ws = .prime := by
  have hp0 : p ≠ 0 := by rintro rfl; exact absurd hp (by decide)
  have hne : p - 1 ≠ 0 := by
    intro h; have := congrArg BitVec.toNat h; rw [sub_one_toNat hp0] at this; simp at this; omega
  obtain ⟨h1, _, h2⟩ := decompose_spec 64 (p - 1) 0 hne (BitVec.isLt _)
  rw [sub_one_toNat hp0, Nat.sub_zero] at h2
  have hs : (decompose 64 (p - 1) 0).2 ≠ 0 := by
    intro hc
    rw [hc] at h2
    have := hp.eq_two_or_odd
    omega
  simp only [strongTest]
  rw [if_pos]
  rw [List.all_eq_true]
  intro v hv
  exact satisfied_of_prime wide hp hs h2 (hw v hv)

/-- No prime is rejected by step 2 (R112, R121). -/
theorem trialDivides_false_of_prime {p : Word} (hp : p.toNat.Prime) : trialDivides p = false := by
  simp only [trialDivides, List.any_eq_false, Bool.not_eq_true]
  intro q hq
  have hq0 : q ≠ 0 ∧ q.toNat ≠ 1 := by
    simp only [trialPrimes, List.mem_cons, List.not_mem_nil, or_false] at hq
    rcases hq with rfl | rfl | rfl | rfl | rfl | rfl | rfl <;> decide
  by_contra h
  rw [Bool.not_eq_false, trialHit_iff] at h
  rcases (Nat.dvd_prime hp).mp h.1 with h1 | h1
  · exact hq0.2 h1
  · exact h.2 (BitVec.eq_of_toNat_eq h1.symm)

/-- Step 1 is membership in the primes below 31 (R111, R121). -/
theorem trivial_correct (p : Word) (h : p < trivialLimit) : trivialVerdict p = .prime ↔ p.toNat.Prime := by
  have hl : p.toNat < 31 := h
  have : ∀ n < 31, (trivialVerdict (BitVec.ofNat 64 n) = .prime ↔ Nat.Prime n) := by
    intro n hn; interval_cases n <;> norm_num <;> decide
  have e := this p.toNat hl
  rwa [BitVec.ofNat_toNat, BitVec.setWidth_eq] at e

end Sys2Proof.Machine
end

