-- ==== Sys2Proof/Laws/PerInstr.lean ====
section
/-! SUPPORT. Statements made per instruction, one lemma per constructor. -/

namespace Sys2Proof.Laws.OpMatch

/-- The operation code of an instruction (R61). -/
def opOf : Instr → BitVec 2
  | .mulmod _ _ _ => 0
  | .powmod _ _ _ => 1
  | .isprime _ _ _ => 2

/-- The command word of an instruction matches its row of the opcode table and no other (R61). -/
def Statement (i : Instr) : Prop :=
  encode i &&& opMask = opMatch (opOf i) ∧ ∀ op, encode i &&& opMask = opMatch op → op = opOf i

theorem opMatch_injective {x y : BitVec 2} (h : opMatch x = opMatch y) : x = y := by
  have := congrArg BitVec.toNat h
  rw [toNat_opMatch, toNat_opMatch] at this
  exact BitVec.eq_of_toNat_eq (by omega)

/-- A word assembled with an operation code matches that code's row and no other. -/
theorem ofFields_matches (op : BitVec 2) (a b m : Word) :
    Cmd.ofFields op a b m &&& opMask = opMatch op ∧
      ∀ op', Cmd.ofFields op a b m &&& opMask = opMatch op' → op' = op := by
  rw [and_opMask, Cmd.op_ofFields]
  exact ⟨rfl, fun _ h => (opMatch_injective h).symm⟩

theorem mulmod (a b m : Word) : Statement (.mulmod a b m) := ofFields_matches 0 a b m
theorem powmod (base exponent m : Word) : Statement (.powmod base exponent m) := ofFields_matches 1 base exponent m
theorem isprime (p ignoredB ignoredM : Word) : Statement (.isprime p ignoredB ignoredM) :=
  ofFields_matches 2 p ignoredB ignoredM

end Sys2Proof.Laws.OpMatch
end

