-- ==== Sys2Proof/Laws/Rom.lean ====
section
/-! SUPPORT. What the words of the witness ROM are (20_memory.md R42, R43). -/

namespace Sys2Proof.Machine

theorem wrom_append (t u : List WitnessRow) : wrom (t ++ u) = wrom t ++ wrom u := by simp [wrom]

theorem wrom_cons (r : WitnessRow) (t : List WitnessRow) : wrom (r :: t) = WitnessRow.words r ++ wrom t := by simp [wrom]

/-- A word of a row, by its place in the row (R42). -/
theorem romRead_row {pre post : List WitnessRow} {r : WitnessRow} (j : Nat) (hj : j < r.witnesses.length + 2) :
    romRead (pre ++ r :: post) ((wrom pre).length + j) = (WitnessRow.words r)[j]? := by
  have hl : j < (WitnessRow.words r).length := by simp [WitnessRow.words]; omega
  rw [romRead, wrom_append, wrom_cons, List.getElem?_append_right (by omega), Nat.add_sub_cancel_left,
    List.getElem?_append_left hl]

/-- The first word of a row (R42). -/
theorem romRead_pmax {pre post : List WitnessRow} {r : WitnessRow} :
    romRead (pre ++ r :: post) (wrom pre).length = some (WitnessRow.pmax r) := by
  simpa [WitnessRow.words] using romRead_row (pre := pre) (post := post) (r := r) 0 (by omega)

/-- A witness of a row (R42). -/
theorem romRead_witness {pre post : List WitnessRow} {r : WitnessRow} {us vs : List Word} {v : Word}
    (h : r.witnesses = us ++ v :: vs) :
    romRead (pre ++ r :: post) ((wrom pre).length + 1 + us.length) = some v := by
  rw [Nat.add_assoc, romRead_row (1 + us.length) (by simp [h]; omega)]
  simp [WitnessRow.words, h, Nat.add_comm 1]

/-- The last word of a row (R42). -/
theorem romRead_sentinel {pre post : List WitnessRow} {r : WitnessRow} :
    romRead (pre ++ r :: post) ((wrom pre).length + 1 + r.witnesses.length) = some sentinel := by
  rw [Nat.add_assoc, romRead_row (1 + r.witnesses.length) (by omega)]
  simp [WitnessRow.words, Nat.add_comm 1]

/-- Where the next row begins (R42). -/
theorem wrom_length_snoc (pre : List WitnessRow) (r : WitnessRow) :
    (wrom (pre ++ [r])).length = (wrom pre).length + 1 + r.witnesses.length + 1 := by
  simp [wrom, WitnessRow.words]; omega

/-- Comparing with `PMAX` is comparing with the bound (R114). -/
theorem pmax_serves {r : WitnessRow} (hr : r.wf = true) (p : Word) :
    p ≤ WitnessRow.pmax r ↔ p.toNat < r.bound := by
  simp only [WitnessRow.wf, Bool.and_eq_true, decide_eq_true_eq] at hr
  rw [BitVec.le_def, WitnessRow.pmax, BitVec.toNat_ofNat, Nat.mod_eq_of_lt (by omega)]
  omega

end Sys2Proof.Machine
end

