-- ==== Sys2Proof/Laws/Sequencer.lean ====
section
/-! SUPPORT. What the micro-steps of each unit lead to: a call of a unit comes back to its caller with the value of
the unit's function (R90, R123). -/

namespace Sys2Proof.Machine


/-- Micro-steps add up. -/
theorem microRun_add (cfg : Params) (op : BitVec 2) (a b m : Word) : ∀ (n k : Nat) (w : Work),
    microRun cfg op a b m (n + k) w = microRun cfg op a b m k (microRun cfg op a b m n w)
  | 0, k, w => by simp [microRun]
  | n + 1, k, w => by
    rw [Nat.add_right_comm]; exact microRun_add cfg op a b m n k _

/-- Some number of micro-steps leads from `w` to `w'`. -/
def Reaches (cfg : Params) (op : BitVec 2) (a b m : Word) (w w' : Work) : Prop :=
  ∃ n, microRun cfg op a b m n w = w'

variable {cfg : Params} {op : BitVec 2} {a b m : Word} {w w' w'' : Work}

theorem Reaches.refl : Reaches cfg op a b m w w := ⟨0, rfl⟩

theorem Reaches.trans : Reaches cfg op a b m w w' → Reaches cfg op a b m w' w'' → Reaches cfg op a b m w w''
  | ⟨n, h⟩, ⟨k, h'⟩ => ⟨n + k, by rw [microRun_add, h, h']⟩

theorem Reaches.step (h : Reaches cfg op a b m (microStep cfg op a b m w) w') : Reaches cfg op a b m w w' :=
  match h with | ⟨n, h⟩ => ⟨n + 1, h⟩

/-- MM's loop ends with `mulLoop` in `MM_R` (R84). -/
theorem mmLoop_reaches (c : MmCaller) : ∀ (n : Nat) (w : Work), w.seq = .mmLoop c → w.mmB.toNat < 2 ^ n →
    ∃ x y, Reaches cfg op a b m w
      ({ w with mmA := x, mmB := y, mmR := mulLoop w.mmM n w.mmR w.mmA w.mmB }.returnMm c)
  | 0, w, hs, hb => by
    have h0 : w.mmB = 0 := BitVec.eq_of_toNat_eq (by simpa using hb)
    refine ⟨w.mmA, w.mmB, .step ?_⟩
    simp only [microStep, hs, Work.mmLoop, h0, if_true, mulLoop]
    cases w; simp only at h0; subst h0; exact .refl
  | n + 1, w, hs, hb => by
    by_cases h0 : w.mmB = 0
    · refine ⟨w.mmA, w.mmB, .step ?_⟩
      simp only [microStep, hs, Work.mmLoop, h0, if_true, mulLoop]
      cases w; simp only at h0; subst h0; exact .refl
    · have hl := toNat_low_bit w.mmB
      have hlt : (w.mmB >>> 1).toNat < 2 ^ n := by rw [pow_succ] at hb; omega
      obtain ⟨x, y, h⟩ := mmLoop_reaches c n
        { w with mmR := mulAcc w.mmR w.mmA w.mmB w.mmM, mmA := addmod w.mmA w.mmA w.mmM, mmB := w.mmB >>> 1 } hs hlt
      refine ⟨x, y, .step ?_⟩
      simpa only [microStep, hs, Work.mmLoop, h0, if_false, mulLoop] using h

/-- A call of MM returns to its caller with `mulmod` in `MM_R` (R81, R123). -/
theorem callMm_reaches (c : MmCaller) (w : Work) (x y z : Word) :
    ∃ x' y' q, Reaches cfg op a b m (w.callMm c x y z)
      ({ w with mmA := x', mmB := y', mmM := z, mmR := mulmod cfg.hasWideMul x y z, seq := q }.returnMm c) := by
  by_cases hf : fitsFast (x % z) (y % z) = true
  · refine ⟨x % z, y % z, .mmSelect c, .step ?_⟩
    simp only [microStep, Work.callMm, Work.mmSelect, hf, if_true, mulmod]
    exact .refl
  · by_cases hw : cfg.hasWideMul = true
    · refine ⟨x % z, y % z, .mmSelect c, .step ?_⟩
      simp only [microStep, Work.callMm, Work.mmSelect, hf, hw, if_true, mulmod]
      exact .refl
    · obtain ⟨x', y', h⟩ := mmLoop_reaches (cfg := cfg) (op := op) (a := a) (b := b) (m := m) c 64
        { w with mmA := x % z, mmB := y % z, mmM := z, mmR := 0, seq := .mmLoop c } rfl (BitVec.isLt _)
      refine ⟨x', y', .mmLoop c, .step ?_⟩
      simpa only [microStep, Work.callMm, Work.mmSelect, hf, hw, Bool.false_eq_true, if_false, mulmod] using h

/-- ME's loop ends with `powLoop` in `ME_R` (R101). -/
theorem meLoop_reaches (c : MeCaller) : ∀ (n : Nat) (w : Work), w.seq = .meLoop c → w.meE.toNat < 2 ^ n →
    ∃ x y u v e f q, Reaches cfg op a b m w
      ({ w with mmA := x, mmB := y, mmM := u, mmR := v, meB := e, meE := f, seq := q,
                meR := powLoop cfg.hasWideMul w.meM n w.meR w.meB w.meE }.returnMe c)
  | 0, w, hs, hb => by
    have h0 : w.meE = 0 := BitVec.eq_of_toNat_eq (by simpa using hb)
    refine ⟨w.mmA, w.mmB, w.mmM, w.mmR, w.meB, w.meE, w.seq, .step ?_⟩
    simp only [microStep, hs, Work.meLoop, h0, if_true, powLoop]
    cases w; simp only at h0 hs; subst h0 hs; exact .refl
  | n + 1, w, hs, hb => by
    by_cases h0 : w.meE = 0
    · refine ⟨w.mmA, w.mmB, w.mmM, w.mmR, w.meB, w.meE, w.seq, .step ?_⟩
      simp only [microStep, hs, Work.meLoop, h0, if_true, powLoop]
      cases w; simp only at h0 hs; subst h0 hs; exact .refl
    · have hl := toNat_low_bit w.meE
      have hlt : (w.meE >>> 1).toNat < 2 ^ n := by rw [pow_succ] at hb; omega
      by_cases hbit : w.meE.getLsbD 0 = true
      · obtain ⟨x1, y1, q1, h1⟩ := callMm_reaches (cfg := cfg) (op := op) (a := a) (b := b) (m := m)
          (.multiply c) w w.meR w.meB w.meM
        set r1 := mulmod cfg.hasWideMul w.meR w.meB w.meM
        obtain ⟨x2, y2, q2, h2⟩ := callMm_reaches (cfg := cfg) (op := op) (a := a) (b := b) (m := m)
          (.square c) { w with mmA := x1, mmB := y1, mmM := w.meM, mmR := r1, meR := r1, seq := q1 } w.meB w.meB w.meM
        obtain ⟨x, y, u, v, e, f, q, h3⟩ := meLoop_reaches c n
          { w with mmA := x2, mmB := y2, mmM := w.meM, mmR := mulmod cfg.hasWideMul w.meB w.meB w.meM,
                   meR := r1, meB := mulmod cfg.hasWideMul w.meB w.meB w.meM, meE := w.meE >>> 1, seq := .meLoop c } rfl hlt
        refine ⟨x, y, u, v, e, f, q, .step ?_⟩
        simp only [microStep, hs, Work.meLoop, h0, hbit, if_true, if_false, powLoop]
        exact h1.trans (h2.trans h3)
      · obtain ⟨x2, y2, q2, h2⟩ := callMm_reaches (cfg := cfg) (op := op) (a := a) (b := b) (m := m)
          (.square c) w w.meB w.meB w.meM
        obtain ⟨x, y, u, v, e, f, q, h3⟩ := meLoop_reaches c n
          { w with mmA := x2, mmB := y2, mmM := w.meM, mmR := mulmod cfg.hasWideMul w.meB w.meB w.meM,
                   meB := mulmod cfg.hasWideMul w.meB w.meB w.meM, meE := w.meE >>> 1, seq := .meLoop c } rfl hlt
        refine ⟨x, y, u, v, e, f, q, .step ?_⟩
        simp only [microStep, hs, Work.meLoop, h0, hbit, if_false, powLoop]
        exact h2.trans h3

/-- A call of ME returns to its caller with `powmod` in `ME_R` (R101, R123). -/
theorem callMe_reaches (c : MeCaller) (w : Work) (x y z : Word) :
    ∃ x' y' u v e f q, Reaches cfg op a b m (w.callMe c x y z)
      ({ w with mmA := x', mmB := y', mmM := u, mmR := v, meB := e, meE := f, meM := z, seq := q,
                meR := powmod cfg.hasWideMul x y z }.returnMe c) :=
  meLoop_reaches c 64 (w.callMe c x y z) rfl y.isLt

/-- The row search moves past a row's witnesses and its sentinel (R114). -/
theorem ptSkip_reaches {pre post : List WitnessRow} {r : WitnessRow} (k : Nat)
    (ht : cfg.witnessTable = pre ++ r :: post) : ∀ (vs us : List Word) (w : Work),
    r.witnesses = us ++ vs → (∀ v ∈ vs, v ≠ 0) → w.seq = .ptSkip k → w.ptWA = (wrom pre).length + 1 + us.length →
    Reaches cfg op a b m w { w with ptWA := (wrom (pre ++ [r])).length, seq := .ptSearch (k + 1) }
  | [], us, w, hr, _, hs, ha => by
    have hus : us = r.witnesses := by simpa using hr.symm
    subst hus
    refine .step ?_
    simp only [microStep, hs, Work.ptSkip, ha, ht, romRead_sentinel, if_true, wrom_length_snoc]
    exact .refl
  | v :: vs, us, w, hr, hv, hs, ha => by
    have hne : ¬ v = sentinel := hv v (by simp)
    refine .step ?_
    simp only [microStep, hs, Work.ptSkip, ha, ht, romRead_witness hr, hne, if_false]
    have h := ptSkip_reaches k ht vs (us ++ [v])
      { w with ptWA := (wrom pre).length + 1 + us.length + 1, seq := .ptSkip k } (by simp [hr])
      (fun u hu => hv u (by simp [hu])) rfl (by simp; omega)
    exact h

/-- The row search on the ROM finds the row that `selectRow` selects (R114, R115). -/
theorem ptSearch_reaches (hok : ∀ r ∈ cfg.witnessTable, r.wf = true) : ∀ (rest pre : List WitnessRow) (w : Work),
    cfg.witnessTable = pre ++ rest → w.seq = .ptSearch pre.length → w.ptWA = (wrom pre).length →
    match selectRow rest a with
    | none => ∃ x, Reaches cfg op a b m w ({ w with ptWA := x }.finishVerdict .outOfRange)
    | some r => ∃ pre' post, cfg.witnessTable = pre' ++ r :: post ∧
        Reaches cfg op a b m w
          { w with ptWA := (wrom pre').length + 1, ptD := a - 1, ptS := 0, seq := .ptDecompose }
  | [], pre, w, ht, hs, ha => by
    refine ⟨w.ptWA, .step ?_⟩
    have : pre.length = cfg.witnessTable.length := by simp [ht]
    simp only [microStep, hs, Work.ptSearch, this, if_true]
    exact .refl
  | r :: rest, pre, w, ht, hs, ha => by
    have hr : r.wf = true := hok r (by simp [ht])
    have hlen : ¬ pre.length = cfg.witnessTable.length := by simp [ht]
    have hread : romRead cfg.witnessTable (wrom pre).length = some (WitnessRow.pmax r) := by rw [ht, romRead_pmax]
    by_cases hp : a.toNat < r.bound
    · have hsel : selectRow (r :: rest) a = some r := by simp [selectRow, hp]
      rw [hsel]
      refine ⟨pre, rest, ht, .step ?_⟩
      simp only [microStep, hs, Work.ptSearch, hlen, ha, hread, (pmax_serves hr a).mpr hp, if_true, if_false]
      exact .refl
    · have hsel : selectRow (r :: rest) a = selectRow rest a := by simp [selectRow, hp]
      rw [hsel]
      have hnz : ∀ v ∈ r.witnesses, v ≠ 0 := by
        simp only [WitnessRow.wf, Bool.and_eq_true] at hr
        simpa using hr.2
      have hskip := ptSkip_reaches (op := op) (a := a) (b := b) (m := m) pre.length ht r.witnesses []
        { w with ptWA := (wrom pre).length + 1, seq := .ptSkip pre.length } rfl hnz rfl rfl
      have ih := ptSearch_reaches hok rest (pre ++ [r])
        { w with ptWA := (wrom (pre ++ [r])).length, seq := .ptSearch (pre ++ [r]).length } (by simp [ht]) rfl rfl
      have hfirst : Reaches cfg op a b m w
          { w with ptWA := (wrom (pre ++ [r])).length, seq := .ptSearch (pre ++ [r]).length } := by
        refine .step ?_
        simp only [microStep, hs, Work.ptSearch, hlen, ha, hread, mt (pmax_serves hr a).mp hp, if_false]
        simpa using hskip
      cases hsel' : selectRow rest a with
      | none => rw [hsel'] at ih; obtain ⟨x, h⟩ := ih; exact ⟨x, hfirst.trans h⟩
      | some r' =>
        rw [hsel'] at ih; obtain ⟨pre', post, h1, h2⟩ := ih; exact ⟨pre', post, h1, hfirst.trans h2⟩

/-- The shift loop computes `decompose` (R116). -/
theorem ptDecompose_reaches : ∀ (n : Nat) (w : Work) (s : Nat), w.seq = .ptDecompose → w.ptD ≠ 0 →
    w.ptD.toNat < 2 ^ n → w.ptS = BitVec.ofNat 7 s →
    Reaches cfg op a b m w
      { w with ptD := (decompose n w.ptD s).1, ptS := BitVec.ofNat 7 (decompose n w.ptD s).2, seq := .ptWitness }
  | 0, w, s, hs, h0, hb, _ => absurd (BitVec.eq_of_toNat_eq (by simpa using hb)) h0
  | n + 1, w, s, hs, h0, hb, hS => by
    refine .step ?_
    by_cases hbit : w.ptD.getLsbD 0 = true
    · simp only [microStep, hs, Work.ptDecompose, hbit, if_true, decompose]
      cases w; simp only at hS; subst hS; exact .refl
    · have hl := toNat_low_bit w.ptD
      have hne : w.ptD.toNat ≠ 0 := by simpa using BitVec.toNat_ne.mp h0
      simp only [Bool.not_eq_true] at hbit
      rw [hbit] at hl
      simp only [Bool.toNat_false, Nat.add_zero] at hl
      have h := ptDecompose_reaches n { w with ptD := w.ptD >>> 1, ptS := w.ptS + 1 } (s + 1) hs
        (by intro hc; have hc' : w.ptD >>> 1 = 0 := hc; rw [hc'] at hl; simp at hl; exact hne (by simp [hl])) (by rw [pow_succ] at hb; show (w.ptD >>> 1).toNat < _; omega)
        (by rw [hS]; apply BitVec.eq_of_toNat_eq; simp [BitVec.toNat_add])
      simpa only [microStep, hs, Work.ptDecompose, hbit, Bool.false_eq_true, if_false, decompose] using h

/-- The PT registers that a witness's test keeps. -/
def PtSame (w w' : Work) : Prop := w'.ptD = w.ptD ∧ w'.ptS = w.ptS ∧ w'.ptWA = w.ptWA

/-- The command is finished with a verdict's answer (R70). -/
def Finished (w : Work) (v : Verdict) : Prop := w.seq = .done v.answer.1.code v.answer.2

/-- The inner loop computes `squareLoop` (R117 (iii), (iv)). -/
theorem ptSquare_reaches : ∀ (n : Nat) (w : Work), w.seq = .ptSquare → w.ptRC.toNat + n = w.ptS.toNat - 1 →
    ∃ w', Reaches cfg op a b m w w' ∧
      if squareLoop cfg.hasWideMul a n w.ptX then w'.seq = .ptWitness ∧ PtSame w w' else Finished w' .notPrime
  | 0, w, hs, hn => by
    refine ⟨_, .step .refl, ?_⟩
    simp [squareLoop, microStep, hs, Work.ptSquare, ← hn, Finished, Work.finishVerdict, Work.finish]
  | n + 1, w, hs, hn => by
    have hlt : w.ptRC.toNat < w.ptS.toNat - 1 := by omega
    have hrc : (w.ptRC + 1).toNat = w.ptRC.toNat + 1 := by
      rw [BitVec.toNat_add]
      have h1 : (1 : BitVec 7).toNat = 1 := rfl
      rw [h1]
      have := w.ptS.isLt
      exact Nat.mod_eq_of_lt (by omega)
    obtain ⟨x', y', q, h⟩ := callMm_reaches (cfg := cfg) (op := op) (a := a) (b := b) (m := m) .tester w w.ptX w.ptX a
    set x := mulmod cfg.hasWideMul w.ptX w.ptX a with hx
    have hsq : Reaches cfg op a b m w
        { w with mmA := x', mmB := y', mmM := a, mmR := x, ptX := x, ptRC := w.ptRC + 1, seq := .ptNext } := by
      refine .step ?_
      simp only [microStep, hs, Work.ptSquare, hlt, if_true]
      exact h
    by_cases h1 : x = 1
    · refine ⟨_, hsq.trans (.step .refl), ?_⟩
      simp [squareLoop, ← hx, h1, microStep, Work.ptNext, Finished, Work.finishVerdict, Work.finish]
    · by_cases h2 : x = a - 1
      · refine ⟨_, hsq.trans (.step .refl), ?_⟩
        simp only [squareLoop, ← hx, if_neg h1, if_pos h2, microStep, Work.ptNext, if_true]
        exact ⟨trivial, rfl, rfl, rfl⟩
      · obtain ⟨w', hw, hpost⟩ := ptSquare_reaches n
          { w with mmA := x', mmB := y', mmM := a, mmR := x, ptX := x, ptRC := w.ptRC + 1, seq := .ptSquare } rfl
          (by show (w.ptRC + 1).toNat + n = w.ptS.toNat - 1; rw [hrc]; omega)
        refine ⟨w', hsq.trans (.step ?_), ?_⟩
        · simpa only [microStep, Work.ptNext, if_neg h1, if_neg h2] using hw
        · simp only [squareLoop, ← hx, if_neg h1, if_neg h2]
          exact hpost

/-- The walk over the witnesses computes steps 6 and 7 (R117, R118). -/
theorem ptWitness_reaches {pre post : List WitnessRow} {r : WitnessRow}
    (ht : cfg.witnessTable = pre ++ r :: post) : ∀ (vs us : List Word) (w : Work),
    r.witnesses = us ++ vs → (∀ v ∈ vs, v ≠ 0) → w.seq = .ptWitness → w.ptWA = (wrom pre).length + 1 + us.length →
    ∃ w', Reaches cfg op a b m w w' ∧
      Finished w' (if vs.all (satisfied cfg.hasWideMul a w.ptD w.ptS.toNat) then .prime else .notPrime)
  | [], us, w, hr, _, hs, ha => by
    have hus : us = r.witnesses := by simpa using hr.symm
    subst hus
    refine ⟨_, .step .refl, ?_⟩
    simp [microStep, hs, Work.ptWitness, ha, ht, romRead_sentinel, Finished, Work.finishVerdict, Work.finish]
  | v :: vs, us, w, hr, hv, hs, ha => by
    have hne : ¬ v = sentinel := hv v (by simp)
    obtain ⟨x', y', u, z, e, f, q, hme⟩ := callMe_reaches (cfg := cfg) (op := op) (a := a) (b := b) (m := m) .tester
      { w with ptWA := w.ptWA + 1 } v w.ptD a
    set x := powmod cfg.hasWideMul v w.ptD a with hx
    set w1 : Work := { w with mmA := x', mmB := y', mmM := u, mmR := z, meB := e, meE := f, meM := a, meR := x,
                              ptWA := w.ptWA + 1, ptX := x, seq := .ptFirst } with hw1
    have hfirst : Reaches cfg op a b m w w1 := by
      refine .step ?_
      simp only [microStep, hs, Work.ptWitness, ha, ht, romRead_witness hr, hne, if_false]
      rw [← ha]
      exact hme
    have next (w2 : Work) (h2 : Reaches cfg op a b m w w2) (hs2 : w2.seq = .ptWitness) (hsame : PtSame w1 w2)
        (hsat : satisfied cfg.hasWideMul a w.ptD w.ptS.toNat v = true) :
        ∃ w', Reaches cfg op a b m w w' ∧ Finished w'
          (if (v :: vs).all (satisfied cfg.hasWideMul a w.ptD w.ptS.toNat) then .prime else .notPrime) := by
      obtain ⟨h21, h22, h23⟩ := hsame
      obtain ⟨w', hw', hfin⟩ := ptWitness_reaches ht vs (us ++ [v]) w2 (by simp [hr])
        (fun u hu => hv u (by simp [hu])) hs2 (by rw [h23, hw1]; simp [ha]; omega)
      refine ⟨w', h2.trans hw', ?_⟩
      rw [h21, h22, hw1] at hfin
      simpa [hsat] using hfin
    by_cases hx1 : x = 1 ∨ x = a - 1
    · refine next { w1 with seq := .ptWitness } (hfirst.trans (.step ?_)) rfl ⟨rfl, rfl, rfl⟩ (by simp only [satisfied, ← hx]; rw [if_pos hx1])
      simp only [microStep, hw1, Work.ptFirst, if_pos hx1]
      exact .refl
    · obtain ⟨w2, hw2, hpost⟩ := ptSquare_reaches (cfg := cfg) (op := op) (a := a) (b := b) (m := m) (w.ptS.toNat - 1)
        { w1 with ptRC := 0, seq := .ptSquare } rfl (by simp [hw1])
      have hreach : Reaches cfg op a b m w w2 := by
        refine hfirst.trans (.step ?_)
        simpa only [microStep, hw1, Work.ptFirst, if_neg hx1] using hw2
      by_cases hsq : squareLoop cfg.hasWideMul a (w.ptS.toNat - 1) x = true
      · rw [if_pos hsq] at hpost
        exact next w2 hreach hpost.1 hpost.2 (by simp only [satisfied, ← hx]; rw [if_neg hx1]; exact hsq)
      · rw [if_neg hsq] at hpost
        refine ⟨w2, hreach, ?_⟩
        have : satisfied cfg.hasWideMul a w.ptD w.ptS.toNat v = false := by
          simp only [satisfied, ← hx]; rw [if_neg hx1]; simpa using hsq
        simpa [this] using hpost

/-- The trial divisions compute step 2 (R112). -/
theorem ptTrial_reaches : ∀ (left : List Word) (w : Work), w.seq = .ptTrial left →
    Reaches cfg op a b m w
      (if left.any (trialHit a) then w.finishVerdict .notPrime else { w with seq := .ptFloor })
  | [], w, hs => .step (by simp only [microStep, hs]; exact .refl)
  | q :: left, w, hs => by
    refine .step ?_
    by_cases h : trialHit a q = true
    · simp only [microStep, hs, h, if_true, List.any_cons, Bool.true_or]; exact .refl
    · have ih := ptTrial_reaches left { w with seq := .ptTrial left } rfl
      simpa only [microStep, hs, h, if_false, List.any_cons, Bool.false_or, Bool.false_eq_true, Work.finishVerdict, Work.finish] using ih

/-- PT finishes with the verdict of `isprime` (R119). -/
theorem isprime_reaches (hwf : cfg.wf = true) (w : Work) (hs : w.seq = .ptTrivial) :
    ∃ w', Reaches cfg op a b m w w' ∧ Finished w' (isprime cfg a) := by
  have hok : ∀ r ∈ cfg.witnessTable, r.wf = true := by
    simp only [Params.wf, Bool.and_eq_true, List.all_eq_true] at hwf
    exact hwf.1.2
  by_cases h1 : a < trivialLimit
  · refine ⟨_, .step .refl, ?_⟩
    simp [microStep, hs, h1, isprime, Finished, Work.finishVerdict, Work.finish]
  have r1 : Reaches cfg op a b m w { w with seq := .ptTrial trialPrimes } := by
    refine .step ?_
    simp only [microStep, hs, h1, if_false]; exact .refl
  have r2 := r1.trans (ptTrial_reaches (op := op) (b := b) (m := m) trialPrimes _ rfl)
  by_cases h2 : trialPrimes.any (trialHit a) = true
  · rw [if_pos h2] at r2
    refine ⟨_, r2, ?_⟩
    simp [isprime, h1, trialDivides, h2, Finished, Work.finishVerdict, Work.finish]
  rw [if_neg h2] at r2
  by_cases h3 : a < smallFloor
  · refine ⟨_, r2.trans (.step .refl), ?_⟩
    simp [isprime, h1, h2, h3, trialDivides, microStep, Finished, Work.finishVerdict, Work.finish]
  have r3 : Reaches cfg op a b m w { w with ptWA := 0, seq := .ptSearch 0 } := by
    refine r2.trans (.step ?_)
    simp only [microStep, h3, if_false]; exact .refl
  have hp : isprime cfg a = witnessStages cfg a := by simp [isprime, h1, h2, h3, trialDivides]
  have h4 := ptSearch_reaches (op := op) (a := a) (b := b) (m := m) hok cfg.witnessTable []
    { w with ptWA := 0, seq := .ptSearch 0 } rfl rfl rfl
  rw [hp, witnessStages]
  cases hsel : selectRow cfg.witnessTable a with
  | none =>
    rw [hsel] at h4
    obtain ⟨x, h4⟩ := h4
    exact ⟨_, r3.trans h4, rfl⟩
  | some r =>
    rw [hsel] at h4
    obtain ⟨pre, post, ht, h4⟩ := h4
    have hrw := hok r (by simp [ht])
    have hnz : ∀ v ∈ r.witnesses, v ≠ 0 := by
      simp only [WitnessRow.wf, Bool.and_eq_true] at hrw
      simpa using hrw.2
    have hd : a - 1 ≠ 0 := by
      intro hc
      have : a = 1 := by
        have := congrArg (· + 1) hc; simpa using this
      subst this
      exact h1 (by decide)
    have h5 := ptDecompose_reaches (cfg := cfg) (op := op) (a := a) (b := b) (m := m) 64
      { w with ptWA := (wrom pre).length + 1, ptD := a - 1, ptS := 0, seq := .ptDecompose } 0 rfl hd (BitVec.isLt _) rfl
    have hS : (BitVec.ofNat 7 (decompose 64 (a - 1) 0).2).toNat = (decompose 64 (a - 1) 0).2 := by
      have := decompose_le 64 (a - 1) 0
      rw [BitVec.toNat_ofNat]; exact Nat.mod_eq_of_lt (by omega)
    obtain ⟨w', h6, hfin⟩ := ptWitness_reaches (cfg := cfg) (op := op) (a := a) (b := b) (m := m) ht r.witnesses []
      { w with ptWA := (wrom pre).length + 1, ptD := (decompose 64 (a - 1) 0).1,
               ptS := BitVec.ofNat 7 (decompose 64 (a - 1) 0).2, seq := .ptWitness } rfl hnz rfl rfl
    refine ⟨w', r3.trans (h4.trans (h5.trans h6)), ?_⟩
    simpa only [strongTest, hS] using hfin

end Sys2Proof.Machine
end

