-- ==== Sys2Proof/Laws/State.lean ====
section
/-! SUPPORT. One lemma per field per update of State, each true by rfl, so that no later proof unfolds a record
update. -/

namespace Sys2Proof.Machine

/-! The edge is taken off the host's list. -/

@[simp] theorem State.popEdge_phase (s : State) : (s.popEdge).phase = s.phase := rfl
@[simp] theorem State.popEdge_op (s : State) : (s.popEdge).op = s.op := rfl
@[simp] theorem State.popEdge_a (s : State) : (s.popEdge).a = s.a := rfl
@[simp] theorem State.popEdge_b (s : State) : (s.popEdge).b = s.b := rfl
@[simp] theorem State.popEdge_m (s : State) : (s.popEdge).m = s.m := rfl
@[simp] theorem State.popEdge_rspStatus (s : State) : (s.popEdge).rspStatus = s.rspStatus := rfl
@[simp] theorem State.popEdge_rspResult (s : State) : (s.popEdge).rspResult = s.rspResult := rfl
@[simp] theorem State.popEdge_work (s : State) : (s.popEdge).work = s.work := rfl
@[simp] theorem State.popEdge_cfg (s : State) : (s.popEdge).cfg = s.cfg := rfl
@[simp] theorem State.popEdge_edges (s : State) : (s.popEdge).edges = s.edges.tail := rfl
@[simp] theorem State.popEdge_busyLeft (s : State) : (s.popEdge).busyLeft = s.busyLeft := rfl
@[simp] theorem State.popEdge_supply (s : State) : (s.popEdge).supply = s.supply := rfl
@[simp] theorem State.popEdge_draws (s : State) : (s.popEdge).draws = s.draws := rfl

/-! A free number is drawn. -/

@[simp] theorem State.afterDraw_phase (s : State) : (s.afterDraw).phase = s.phase := rfl
@[simp] theorem State.afterDraw_op (s : State) : (s.afterDraw).op = s.op := rfl
@[simp] theorem State.afterDraw_a (s : State) : (s.afterDraw).a = s.a := rfl
@[simp] theorem State.afterDraw_b (s : State) : (s.afterDraw).b = s.b := rfl
@[simp] theorem State.afterDraw_m (s : State) : (s.afterDraw).m = s.m := rfl
@[simp] theorem State.afterDraw_rspStatus (s : State) : (s.afterDraw).rspStatus = s.rspStatus := rfl
@[simp] theorem State.afterDraw_rspResult (s : State) : (s.afterDraw).rspResult = s.rspResult := rfl
@[simp] theorem State.afterDraw_work (s : State) : (s.afterDraw).work = s.work := rfl
@[simp] theorem State.afterDraw_cfg (s : State) : (s.afterDraw).cfg = s.cfg := rfl
@[simp] theorem State.afterDraw_edges (s : State) : (s.afterDraw).edges = s.edges := rfl
@[simp] theorem State.afterDraw_busyLeft (s : State) : (s.afterDraw).busyLeft = s.busyLeft := rfl
@[simp] theorem State.afterDraw_supply (s : State) : (s.afterDraw).supply = s.supply.tail := rfl
@[simp] theorem State.afterDraw_draws (s : State) : (s.afterDraw).draws = s.draws + 1 := rfl

/-! An operation ends (R28). -/

@[simp] theorem State.respond_phase (s : State) (st : Status) (r : Word) : (s.respond st r).phase = .resp := rfl
@[simp] theorem State.respond_op (s : State) (st : Status) (r : Word) : (s.respond st r).op = s.op := rfl
@[simp] theorem State.respond_a (s : State) (st : Status) (r : Word) : (s.respond st r).a = s.a := rfl
@[simp] theorem State.respond_b (s : State) (st : Status) (r : Word) : (s.respond st r).b = s.b := rfl
@[simp] theorem State.respond_m (s : State) (st : Status) (r : Word) : (s.respond st r).m = s.m := rfl
@[simp] theorem State.respond_rspStatus (s : State) (st : Status) (r : Word) : (s.respond st r).rspStatus = st.code := rfl
@[simp] theorem State.respond_rspResult (s : State) (st : Status) (r : Word) : (s.respond st r).rspResult = r := rfl
@[simp] theorem State.respond_work (s : State) (st : Status) (r : Word) : (s.respond st r).work = s.work := rfl
@[simp] theorem State.respond_cfg (s : State) (st : Status) (r : Word) : (s.respond st r).cfg = s.cfg := rfl
@[simp] theorem State.respond_edges (s : State) (st : Status) (r : Word) : (s.respond st r).edges = s.edges := rfl
@[simp] theorem State.respond_busyLeft (s : State) (st : Status) (r : Word) : (s.respond st r).busyLeft = s.busyLeft := rfl
@[simp] theorem State.respond_supply (s : State) (st : Status) (r : Word) : (s.respond st r).supply = s.supply := rfl
@[simp] theorem State.respond_draws (s : State) (st : Status) (r : Word) : (s.respond st r).draws = s.draws := rfl

/-! DELIVER (R29). -/

@[simp] theorem State.deliver_phase (s : State) : (s.deliver).phase = .idle := rfl
@[simp] theorem State.deliver_op (s : State) : (s.deliver).op = s.op := rfl
@[simp] theorem State.deliver_a (s : State) : (s.deliver).a = s.a := rfl
@[simp] theorem State.deliver_b (s : State) : (s.deliver).b = s.b := rfl
@[simp] theorem State.deliver_m (s : State) : (s.deliver).m = s.m := rfl
@[simp] theorem State.deliver_rspStatus (s : State) : (s.deliver).rspStatus = s.rspStatus := rfl
@[simp] theorem State.deliver_rspResult (s : State) : (s.deliver).rspResult = s.rspResult := rfl
@[simp] theorem State.deliver_work (s : State) : (s.deliver).work = s.work := rfl
@[simp] theorem State.deliver_cfg (s : State) : (s.deliver).cfg = s.cfg := rfl
@[simp] theorem State.deliver_edges (s : State) : (s.deliver).edges = s.edges := rfl
@[simp] theorem State.deliver_busyLeft (s : State) : (s.deliver).busyLeft = s.busyLeft := rfl
@[simp] theorem State.deliver_supply (s : State) : (s.deliver).supply = s.supply := rfl
@[simp] theorem State.deliver_draws (s : State) : (s.deliver).draws = s.draws := rfl

/-! The latch takes a command word. -/

@[simp] theorem State.latch_phase (s : State) (w : Cmd) : (s.latch w).phase = s.phase := rfl
@[simp] theorem State.latch_op (s : State) (w : Cmd) : (s.latch w).op = Cmd.op w := rfl
@[simp] theorem State.latch_a (s : State) (w : Cmd) : (s.latch w).a = Cmd.a w := rfl
@[simp] theorem State.latch_b (s : State) (w : Cmd) : (s.latch w).b = Cmd.b w := rfl
@[simp] theorem State.latch_m (s : State) (w : Cmd) : (s.latch w).m = Cmd.m w := rfl
@[simp] theorem State.latch_rspStatus (s : State) (w : Cmd) : (s.latch w).rspStatus = s.rspStatus := rfl
@[simp] theorem State.latch_rspResult (s : State) (w : Cmd) : (s.latch w).rspResult = s.rspResult := rfl
@[simp] theorem State.latch_work (s : State) (w : Cmd) : (s.latch w).work = s.work := rfl
@[simp] theorem State.latch_cfg (s : State) (w : Cmd) : (s.latch w).cfg = s.cfg := rfl
@[simp] theorem State.latch_edges (s : State) (w : Cmd) : (s.latch w).edges = s.edges := rfl
@[simp] theorem State.latch_busyLeft (s : State) (w : Cmd) : (s.latch w).busyLeft = s.busyLeft := rfl
@[simp] theorem State.latch_supply (s : State) (w : Cmd) : (s.latch w).supply = s.supply := rfl
@[simp] theorem State.latch_draws (s : State) (w : Cmd) : (s.latch w).draws = s.draws := rfl

/-! ACCEPT (R27). -/

@[simp] theorem State.accept_phase (s : State) (e : Edge) : (s.accept e).phase = .busy := rfl
@[simp] theorem State.accept_op (s : State) (e : Edge) : (s.accept e).op = e.cmdOp := rfl
@[simp] theorem State.accept_a (s : State) (e : Edge) : (s.accept e).a = e.cmdA := rfl
@[simp] theorem State.accept_b (s : State) (e : Edge) : (s.accept e).b = e.cmdB := rfl
@[simp] theorem State.accept_m (s : State) (e : Edge) : (s.accept e).m = e.cmdM := rfl
@[simp] theorem State.accept_rspStatus (s : State) (e : Edge) : (s.accept e).rspStatus = s.rspStatus := rfl
@[simp] theorem State.accept_rspResult (s : State) (e : Edge) : (s.accept e).rspResult = s.rspResult := rfl
@[simp] theorem State.accept_work (s : State) (e : Edge) : (s.accept e).work = { s.work with seq := .start } := rfl
@[simp] theorem State.accept_cfg (s : State) (e : Edge) : (s.accept e).cfg = s.cfg := rfl
@[simp] theorem State.accept_edges (s : State) (e : Edge) : (s.accept e).edges = s.edges := rfl
@[simp] theorem State.accept_busyLeft (s : State) (e : Edge) : (s.accept e).busyLeft = s.drawn := rfl
@[simp] theorem State.accept_supply (s : State) (e : Edge) : (s.accept e).supply = s.supply.tail := rfl
@[simp] theorem State.accept_draws (s : State) (e : Edge) : (s.accept e).draws = s.draws + 1 := rfl

/-! A waiting edge in BUSY (R32). -/

@[simp] theorem State.workOn_phase (s : State) : (s.workOn).phase = s.phase := rfl
@[simp] theorem State.workOn_op (s : State) : (s.workOn).op = s.op := rfl
@[simp] theorem State.workOn_a (s : State) : (s.workOn).a = s.a := rfl
@[simp] theorem State.workOn_b (s : State) : (s.workOn).b = s.b := rfl
@[simp] theorem State.workOn_m (s : State) : (s.workOn).m = s.m := rfl
@[simp] theorem State.workOn_rspStatus (s : State) : (s.workOn).rspStatus = s.rspStatus := rfl
@[simp] theorem State.workOn_rspResult (s : State) : (s.workOn).rspResult = s.rspResult := rfl
@[simp] theorem State.workOn_work (s : State) : (s.workOn).work = microRun s.cfg s.op s.a s.b s.m s.drawn s.work := rfl
@[simp] theorem State.workOn_cfg (s : State) : (s.workOn).cfg = s.cfg := rfl
@[simp] theorem State.workOn_edges (s : State) : (s.workOn).edges = s.edges := rfl
@[simp] theorem State.workOn_busyLeft (s : State) : (s.workOn).busyLeft = s.busyLeft - 1 := rfl
@[simp] theorem State.workOn_supply (s : State) : (s.workOn).supply = s.supply.tail := rfl
@[simp] theorem State.workOn_draws (s : State) : (s.workOn).draws = s.draws + 1 := rfl

/-! The reset step (R160). -/

@[simp] theorem State.resetEdge_phase (s : State) : (s.resetEdge).phase = .idle := rfl
@[simp] theorem State.resetEdge_op (s : State) : (s.resetEdge).op = Config.freeOp s.draws := rfl
@[simp] theorem State.resetEdge_a (s : State) : (s.resetEdge).a = Config.freeA s.draws := rfl
@[simp] theorem State.resetEdge_b (s : State) : (s.resetEdge).b = Config.freeB s.draws := rfl
@[simp] theorem State.resetEdge_m (s : State) : (s.resetEdge).m = Config.freeM s.draws := rfl
@[simp] theorem State.resetEdge_rspStatus (s : State) : (s.resetEdge).rspStatus = Config.freeStatus s.draws := rfl
@[simp] theorem State.resetEdge_rspResult (s : State) : (s.resetEdge).rspResult = Config.freeResult s.draws := rfl
@[simp] theorem State.resetEdge_work (s : State) : (s.resetEdge).work = Config.freeWork s.draws := rfl
@[simp] theorem State.resetEdge_cfg (s : State) : (s.resetEdge).cfg = s.cfg := rfl
@[simp] theorem State.resetEdge_edges (s : State) : (s.resetEdge).edges = s.edges := rfl
@[simp] theorem State.resetEdge_busyLeft (s : State) : (s.resetEdge).busyLeft = s.busyLeft := rfl
@[simp] theorem State.resetEdge_supply (s : State) : (s.resetEdge).supply = s.supply := rfl
@[simp] theorem State.resetEdge_draws (s : State) : (s.resetEdge).draws = s.draws + 1 := rfl

end Sys2Proof.Machine
end

