-- ==== Sys2Proof/Laws/Step.lean ====
section
/-! SUPPORT. What one step can do, said once: COMPLETE answers `Exec` of the latch (R28), and a step is one of the
rows of the table of R32. -/

namespace Sys2Proof.Machine

/-- Every instruction ends with a response (R80, R100, R110). -/
theorem exec_responds (i : Instr) (s : State) : ∃ st r, exec i s = .next (s.respond st r) := by
  cases i with
  | mulmod a b m =>
    by_cases h : m = 0
    · exact ⟨.errModZero, 0, by simp only [exec, execMulmod]; rw [if_pos h]; rfl⟩
    · exact ⟨.ok, _, by simp only [exec, execMulmod]; rw [if_neg h]; rfl⟩
  | powmod a e m =>
    by_cases h : m = 0
    · exact ⟨.errModZero, 0, by simp only [exec, execPowmod]; rw [if_pos h]; rfl⟩
    · exact ⟨.ok, _, by simp only [exec, execPowmod]; rw [if_neg h]; rfl⟩
  | isprime p b m => exact ⟨_, _, rfl⟩

/-- The operation codes, all four. -/
theorem op_cases (op : BitVec 2) : op = 0 ∨ op = 1 ∨ op = 2 ∨ op = 3 := by
  have : ∀ x : BitVec 2, x = 0 ∨ x = 1 ∨ x = 2 ∨ x = 3 := by decide
  exact this op

/-- The meaning of decoded fields answers `Exec` of the fields (R70), in any state. -/
theorem fields_answer (op : BitVec 2) (a b m : Word) (s : State) :
    (match decodeFields op a b m with
      | some i => exec i s
      | none => raise .errIllegalOp s) =
      .next { s with rspStatus := (execPair s.cfg op a b m).1, rspResult := (execPair s.cfg op a b m).2,
                     phase := .resp } := by
  rcases op_cases op with rfl | rfl | rfl | rfl
  · show execMulmod a b m s = _
    by_cases hm : m = 0#64 <;> simp [execMulmod, execPair, hm, raise, respond, State.respond]
  · show execPowmod a b m s = _
    by_cases hm : m = 0#64 <;> simp [execPowmod, execPair, hm, raise, respond, State.respond]
  · show execIsprime a b m s = _
    cases h : isprime s.cfg a <;> simp [execIsprime, execPair, h, respond, State.respond, Verdict.answer]
  · rfl

/-- COMPLETE answers `Exec` of the latch (R28, R70). -/
theorem complete_eq (s : State) :
    complete s = .next { s with rspStatus := s.answer.1, rspResult := s.answer.2, phase := .resp } := by
  unfold complete State.latchCmd
  rw [decode_ofFields]
  exact fields_answer s.op s.a s.b s.m s

/-- One edge, case by case (table of R32): what holds before it and what the next state is. -/
theorem takeEdge_cases {e : Edge} {s t : State} (h : takeEdge e s = .next t) :
    (e.rst = true ∧ t = s.resetEdge) ∨
    (e.rst = false ∧ s.phase = .idle ∧ e.cmdValid = true ∧ t = s.accept e) ∨
    (e.rst = false ∧ s.phase = .idle ∧ e.cmdValid = false ∧ t = s) ∨
    (e.rst = false ∧ s.phase = .busy ∧ s.busyLeft = 0 ∧
      t = { s with rspStatus := s.answer.1, rspResult := s.answer.2, phase := .resp }) ∨
    (e.rst = false ∧ s.phase = .busy ∧ s.busyLeft ≠ 0 ∧ t = s.workOn) ∨
    (e.rst = false ∧ s.phase = .resp ∧ e.rspReady = true ∧ t = s.deliver) ∨
    (e.rst = false ∧ s.phase = .resp ∧ e.rspReady = false ∧ t = s) := by
  unfold takeEdge at h
  rw [complete_eq] at h
  cases hr : e.rst <;> cases hp : s.phase <;> cases hv : e.cmdValid <;> cases hd : e.rspReady <;>
    by_cases hb : s.busyLeft = 0 <;> simp_all

/-- An edge always has a next state (R32, R166). -/
theorem takeEdge_next (e : Edge) (s : State) : ∃ t, takeEdge e s = .next t := by
  unfold takeEdge
  rw [complete_eq]
  cases e.rst <;> cases s.phase <;> cases e.cmdValid <;> cases e.rspReady <;>
    by_cases hb : s.busyLeft = 0 <;> simp [hb]

/-- A step always has a next state (R32, R166). -/
theorem step_next (s : State) : ∃ t, step s = .next t := takeEdge_next s.nextEdge s.popEdge

/-- One step, case by case (table of R32): reset, ACCEPT, nothing offered, COMPLETE, still working, DELIVER, not
taken. -/
theorem step_cases {s t : State} (h : step s = .next t) :
    (s.nextEdge.rst = true ∧ t = s.popEdge.resetEdge) ∨
    (s.nextEdge.rst = false ∧ s.phase = .idle ∧ s.nextEdge.cmdValid = true ∧ t = s.popEdge.accept s.nextEdge) ∨
    (s.nextEdge.rst = false ∧ s.phase = .idle ∧ s.nextEdge.cmdValid = false ∧ t = s.popEdge) ∨
    (s.nextEdge.rst = false ∧ s.phase = .busy ∧ s.busyLeft = 0 ∧
      t = { s.popEdge with rspStatus := s.answer.1, rspResult := s.answer.2, phase := .resp }) ∨
    (s.nextEdge.rst = false ∧ s.phase = .busy ∧ s.busyLeft ≠ 0 ∧ t = s.popEdge.workOn) ∨
    (s.nextEdge.rst = false ∧ s.phase = .resp ∧ s.nextEdge.rspReady = true ∧ t = s.popEdge.deliver) ∨
    (s.nextEdge.rst = false ∧ s.phase = .resp ∧ s.nextEdge.rspReady = false ∧ t = s.popEdge) :=
  takeEdge_cases h

/-- A run goes on from the next state. -/
theorem run_of_step {M : Host.Core} {s t : M.State} (k : Nat) (h : M.step s = .next t) : M.run (k + 1) s = M.run k t := by
  simp only [Host.Core.run, h]

end Sys2Proof.Machine
end

