-- ==== Sys2Proof/Tests/Slice0.lean ====
section
/-! SUPPORT. Tests with expected values from spec/95_test_vectors.md, the smoke tests of WellFormed, and for every
obligation with hypotheses a concrete case that meets them. -/

namespace Sys2Proof.Tests

open Sys2Proof.Machine

/-! ## WellFormed: one ill-formed term for each check -/

theorem test_wf_default_parameters : defaultParams.wf = true := by decide
theorem test_wf_rejects_empty_table : Params.wf ⟨false, []⟩ = false := by decide
theorem test_wf_rejects_bound_zero : Params.wf ⟨false, [⟨0, [2]⟩]⟩ = false := by decide
theorem test_wf_rejects_bound_above_range : Params.wf ⟨false, [⟨2 ^ 64 + 1, [2]⟩]⟩ = false := by decide
theorem test_wf_rejects_empty_witness_list : Params.wf ⟨false, [⟨2047, []⟩]⟩ = false := by decide
theorem test_wf_rejects_witness_zero : Params.wf ⟨false, [⟨2047, [2, 0]⟩]⟩ = false := by decide
theorem test_wf_rejects_equal_bounds : Params.wf ⟨false, [⟨2047, [2]⟩, ⟨2047, [2, 3]⟩]⟩ = false := by decide
/-- No command is ill formed: the widths are in the type and every value is legal (R62, R63). -/
theorem test_wf_accepts_modulus_zero : Instr.wf (.mulmod 5 6 0) = true := by decide

/-! ## Decoding: words written out by hand from R60 and R61 (vectors M2, P7, E6, E2) -/

theorem test_decode_mulmod : decodeTableWord 194 0x000000000000000070000000000000009000000000000000A =
    some (.mulmod 7 9 10) := by decide
theorem test_decode_powmod : decodeTableWord 194 0x10000000000000002000000000000000A00000000000003E8 =
    some (.powmod 2 10 1000) := by decide
theorem test_decode_isprime : decodeTableWord 194 0x20000000000000007000000000000007B0000000000000000 =
    some (.isprime 7 123 0) := by decide
theorem test_decode_reserved : decodeTableWord 194 0x3000000000000000500000000000000060000000000000007 = none := by decide
theorem test_encode_powmod : encode (.powmod 2 10 1000) = 0x10000000000000002000000000000000A00000000000003E8 := by decide
theorem test_decode_refuses_a_longer_word : decodeTableWord 200 (2 ^ 194) = none := by decide

/-! ## One step for a command of the vectors -/

/-- The state after one step, if there is one. -/
def after (s : State) : Option State :=
  match step s with
  | .next t => some t
  | _ => none

/-- The response the host is offered after one step on the command word `w`, in a block built from `cfg`. -/
def answerTo (cfg : Params) (w : Nat) : Option Rsp := (after ({ State.reset with cfg := cfg }.withFetchWord 194 w)).bind State.rspPort

/-- The one-row table of section 2.4. -/
def oneRow : Params := ⟨false, [⟨2047, [2]⟩]⟩

/-- M12: the 65-bit sum. -/
theorem test_mulmod_m12 : answerTo defaultParams 0x0800000000000000000000000000000028000000000000001 =
    some 0x07FFFFFFFFFFFFFFF := by decide +kernel
/-- M21: the modulus 0. -/
theorem test_mulmod_m21 : answerTo defaultParams 0x0FFFFFFFFFFFFFFFFFFFFFFFFFFFFFFFF0000000000000000 =
    some 0x10000000000000000 := by decide +kernel
/-- P3: exponent 0 and modulus 1. -/
theorem test_powmod_p3 : answerTo defaultParams 0x1000000000000000500000000000000000000000000000001 =
    some 0x00000000000000000 := by decide +kernel
/-- P12: a modulus above 2^63 and 63 as exponent. -/
theorem test_powmod_p12 : answerTo defaultParams 0x10000000000000002000000000000003FFFFFFFFFFFFFFFC5 =
    some 0x08000000000000000 := by decide +kernel
/-- I34: 4033, where witness 2 is satisfied and witness 3 exhausts its squarings (trace T8). -/
theorem test_isprime_i34 : answerTo defaultParams 0x20000000000000FC100000000000000000000000000000000 =
    some 0x00000000000000000 := by decide +kernel
/-- K5: 2047 beyond the one-row table. -/
theorem test_isprime_k5 : answerTo oneRow 0x200000000000007FF00000000000000000000000000000000 =
    some 0x30000000000000000 := by decide +kernel
/-- E1: the reserved code is reported before the modulus 0. -/
theorem test_reserved_e1 : answerTo defaultParams 0x3000000000000000000000000000000000000000000000000 =
    some 0x20000000000000000 := by decide +kernel
/-- Trace T2 and T9: primes and composites that leave the inner loop early. -/
theorem test_isprime_traces : isprime defaultParams 353 = .prime ∧ isprime defaultParams 5461 = .notPrime := by decide +kernel

/-- Trace of M11: one round of the loop at register level. -/
theorem test_mm_round_m11 :
    let w : Work := { Work.zero with mmA := 268435456, mmB := 3, mmM := 536870913, seq := .mmLoop .command }
    let w' := microStep defaultParams 0 0 0 0 w
    w'.mmR = 268435456 ∧ w'.mmA = 536870912 ∧ w'.mmB = 1 := by decide +kernel
/-- The register-level machine on 331 ends with the answer of I21. -/
theorem test_sequencer_i21 : (microRun defaultParams 2 331 0 0 60 Work.zero).seq = .done 0 1 := by decide +kernel
/-- ROM words of section 4: `PMAX_0`, the sentinel of row 0, `PMAX_8`, the last word, and its length. -/
theorem test_rom : romRead defaultTable 0 = some 0x7FE ∧ romRead defaultTable 2 = some 0 ∧
    romRead defaultTable 53 = some 0xFFFFFFFFFFFFFFFF ∧ romRead defaultTable 65 = some 37 ∧
    romRead defaultTable 66 = some 0 ∧ romRead defaultTable 67 = none := by decide +kernel

/-- An edge at which the host offers a command. -/
def offer (op : BitVec 2) (a b m : Word) : Edge :=
  { Edge.quiet with cmdValid := true, cmdOp := op, cmdA := a, cmdB := b, cmdM := m }

/-- An edge at which the host takes a response. -/
def take : Edge := { Edge.quiet with rspReady := true }

/-- An edge at which the host resets the block and drives everything else too. -/
def resetAll : Edge := { offer 1 2 3 4 with rst := true, rspReady := true }

/-- The first command of PG1, with a host that is slow: the response is stable until it is taken. -/
theorem test_pg1_first_command :
    trace 5 { State.reset with edges := [offer 0 3 4 5, Edge.quiet, offer 1 2 10 1000, take], supply := [0] } =
      [.accepted (encode (.mulmod 3 4 5)), .delivered 0 2] := by decide +kernel
/-- PG4: a reset drops the command in the block. -/
theorem test_pg4_reset_drops_the_command :
    trace 4 { State.reset with edges := [offer 1 3 4 5, resetAll, take], supply := [7] } =
      [.accepted (encode (.powmod 3 4 5)), .reset] := by decide +kernel

/-! ## Witnesses: a concrete case for the hypotheses of each obligation -/

/-- A command in the block with its work due, and a quiet edge next. -/
def busy (op : BitVec 2) (a b m : Word) : State :=
  { State.reset with phase := .busy, op := op, a := a, b := b, m := m, edges := [Edge.quiet] }

/-- A response of `MULMOD 7, 9, 10` is offered. -/
def offered (e : Edge) : State :=
  { State.reset with phase := .resp, a := 7, b := 9, m := 10, rspResult := 3, edges := [e] }

theorem witness_CommandWordRoundTrip : Instr.wf (.isprime 331 0xDEADBEEF 0xFFFFFFFFFFFFFFFF) = true := by decide
theorem witness_DecodedWordEncodesBack : decode (encode (.isprime 331 0xDEADBEEF 0)) = some (.isprime 331 0xDEADBEEF 0) := by
  decide
theorem witness_StepRunsTheLatchedCommand :
    (busy 0 7 9 10).phase = .busy ∧ (busy 0 7 9 10).busyLeft = 0 ∧ (busy 0 7 9 10).nextEdge.rst = false ∧
      decode (busy 0 7 9 10).latchCmd = some (.mulmod 7 9 10) ∧
      decode (busy 1 2 10 1000).latchCmd = some (.powmod 2 10 1000) ∧
      decode (busy 2 331 5 0).latchCmd = some (.isprime 331 5 0) := by decide
theorem witness_CompleteAppliesExec :
    (busy 3 5 6 0).phase = .busy ∧ (busy 3 5 6 0).busyLeft = 0 ∧ (busy 3 5 6 0).nextEdge.rst = false := by decide
theorem witness_ExecFollowsThePseudocode : (1 : Word) ≠ 0 ∧ isprime defaultParams 2 = .prime ∧
    isprime defaultParams 1 = .notPrime ∧ isprime oneRow 2047 = .outOfRange := by decide +kernel
theorem witness_ReservedCodeIsAnswered :
    (busy 3 5 6 0).phase = .busy ∧ (busy 3 5 6 0).busyLeft = 0 ∧ (busy 3 5 6 0).nextEdge.rst = false ∧
      (busy 3 5 6 0).op = 3 := by decide
theorem witness_AcceptLatchesTheCommand :
    let s : State := { State.reset with edges := [offer 3 5 6 0] }
    s.phase = .idle ∧ s.nextEdge.rst = false ∧ s.nextEdge.cmdValid = true := by decide
theorem witness_DeliverFreesTheBlock :
    (offered take).phase = .resp ∧ (offered take).nextEdge.rst = false ∧ (offered take).nextEdge.rspReady = true := by decide
theorem witness_ResetHasPriority : (offered resetAll).nextEdge.rst = true ∧ (offered resetAll).phase = .resp ∧
    { busy 0 7 9 10 with edges := [resetAll] }.nextEdge.rst = true ∧
    { State.reset with edges := [resetAll] }.nextEdge.rst = true := by decide
theorem witness_OutputsFollowThePhase :
    (offered Edge.quiet).rspValid = true ∧ (offered Edge.quiet).nextEdge.rst = false ∧
      (offered Edge.quiet).nextEdge.rspReady = false ∧ State.reset.rspValid = false ∧ (busy 0 7 9 10).phase = .busy := by decide
theorem witness_OnlyTheNamedStepsWrite :
    (∃ t, step (busy 0 7 9 10) = .next t) ∧ (busy 0 7 9 10).nextEdge.rst = false ∧ (busy 0 7 9 10).phase ≠ .idle ∧
      (∃ t, step State.reset = .next t) ∧ State.reset.nextEdge.cmdValid = false ∧ State.reset.phase ≠ .busy ∧
      { busy 0 7 9 10 with busyLeft := 1 }.busyLeft ≠ 0 := by
  refine ⟨step_next _, ?_, ?_, step_next _, ?_, ?_, ?_⟩ <;> decide
theorem witness_WorkingRegistersMoveOnlyInBusy :
    (∃ t, step { State.reset with edges := [offer 0 7 9 10] } = .next t) ∧
      { State.reset with edges := [offer 0 7 9 10] }.nextEdge.rst = false ∧ State.reset.phase ≠ .busy ∧
      (∃ t, step (busy 0 7 9 10) = .next t) ∧ (busy 0 7 9 10).nextEdge.rst = false ∧ (busy 0 7 9 10).busyLeft = 0 := by
  refine ⟨step_next _, ?_, ?_, step_next _, ?_, ?_⟩ <;> decide
theorem witness_ParametersAreConstant : ∃ t, step (offered resetAll) = .next t := step_next _
theorem witness_PlacedCommandRunsNext : decodeTableWord 194 (2 ^ 193 + 331 * 2 ^ 128) = some (.isprime 331 0 0) := by decide
theorem witness_MulmodAnswersTheExactResidue : (1 : Word) ≠ 0 ∧ (0xFFFFFFFFFFFFFFFF : Word) ≠ 0 ∧ (0 : Word) = 0 := by decide
theorem witness_MulmodPathsMeetTheContract : (1 : Word) ≠ 0 ∧ fitsFast 0xFFFFFFF 0xFFFFFFF = true ∧ (0 : Word) < 1 := by decide
/-- The registers in the last round that M13 runs with its multiplier 1. -/
def lastRound : Work :=
  { Work.zero with mmA := 0xFFFFFFFFFFFFFFFE, mmB := 1, mmM := 0xFFFFFFFFFFFFFFFF, mmR := 0xFFFFFFFFFFFFFFFE,
                   seq := .mmLoop (.square .tester) }
theorem witness_DoubleAndAddKeepsItsInvariant :
    lastRound.seq = .mmLoop (.square .tester) ∧ lastRound.mmB ≠ 0 ∧ lastRound.MmResidues := by
  refine ⟨rfl, by decide, ?_⟩
  unfold Work.MmResidues
  decide
theorem witness_AddmodIsExact : (0 : Word) < 1 ∧ (0xFFFFFFFFFFFFFFFE : Word) < 0xFFFFFFFFFFFFFFFF := by decide
theorem witness_MulmodCornerCases : (1 : Word) ≠ 0 := by decide
theorem witness_PowmodAnswersTheExactPower : (1 : Word) ≠ 0 ∧ (0 : Word) = 0 := by decide
theorem witness_SquareAndMultiplyLoopIsExact : (1 : Word) ≠ 0 ∧ (0 : Word) < 1 ∧ (0 : Word).toNat < 2 ^ 0 ∧
    (0xFFFFFFFFFFFFFFFF : Word).toNat < 2 ^ 64 := by decide
theorem witness_ExponentZeroGivesOneModM : (1 : Word) ≠ 0 := by decide
theorem witness_PowmodCornerCases : (1 : Word) ≠ 0 ∧ (1 : Word) ≠ 0 := by decide
theorem witness_IsprimeAnswersTheVerdict : isprime State.reset.cfg 31 = .prime ∧ isprime State.reset.cfg 323 = .notPrime ∧
    isprime { State.reset with cfg := oneRow }.cfg 2053 = .outOfRange := by decide +kernel
theorem witness_IsprimeIgnoresFieldsBAndM : (offer 2 7 5 0).cmdB = 5 ∧ (offer 2 7 5 0).cmdM = 0 := by decide
theorem witness_FirstThreeStepsAreCorrect : (30 : Word).toNat < 31 ∧ (322 : Word).toNat < 323 ∧
    (17 : Word) ∈ trialPrimes ∧ (17 : Word).toNat ∣ (323 : Word).toNat := by decide
theorem witness_LeastServingRowIsSelected : WitnessRow.wf ⟨1, [2]⟩ = true ∧ WitnessRow.wf ⟨2 ^ 64, [2]⟩ = true := by decide
theorem witness_DecompositionIsExact : 323 ≤ (323 : Word).toNat ∧ (323 : Word).toNat % 2 = 1 ∧
    (0xFFFFFFFFFFFFFFFF : Word).toNat % 2 = 1 := by decide
theorem witness_WitnessTestIsTheStrongTest : 3 ≤ (3 : Word).toNat ∧ 1 ≤ 1 := by decide
theorem witness_PrimesAreNeverRejected : State.reset.cfg.witnessTable = defaultTable ∧ Nat.Prime (2 : Word).toNat :=
  ⟨rfl, Nat.prime_two⟩

/-- A table whose validity can be checked by hand: the undecided numbers below 350 are 331, 337, 347 and 349. -/
def smallTable : Params := ⟨false, [⟨350, [2]⟩]⟩

theorem smallTable_valid : WitnessTableValid smallTable := by
  intro p h1 h2 h3
  have h2 : p.toNat < 350 := h2
  simp only [trialPrimes, List.forall_mem_cons] at h3
  obtain ⟨a2, a3, a5, a7, a11, a13, a17, -⟩ := h3
  have e : p = BitVec.ofNat 64 p.toNat := by simp
  have hn : p.toNat = 331 ∨ p.toNat = 337 ∨ p.toNat = 347 ∨ p.toNat = 349 := by
    change ¬ 2 ∣ p.toNat at a2; change ¬ 3 ∣ p.toNat at a3; change ¬ 5 ∣ p.toNat at a5; change ¬ 7 ∣ p.toNat at a7
    change ¬ 11 ∣ p.toNat at a11; change ¬ 13 ∣ p.toNat at a13; change ¬ 17 ∣ p.toNat at a17
    clear e
    generalize p.toNat = n at *
    interval_cases n <;> omega
  rcases hn with h | h | h | h <;> rw [h] at e <;> subst e <;> rw [h]
  all_goals exact ⟨fun _ => by decide +kernel, fun h => absurd (by norm_num) h⟩

theorem witness_ValidTableDecidesPrimality : smallTable.wf = true ∧ WitnessTableValid smallTable ∧
    (349 : Word).toNat < topBound smallTable.witnessTable ∧ topBound smallTable.witnessTable ≤ (350 : Word).toNat :=
  ⟨by decide, smallTable_valid, by decide, by decide⟩
theorem witness_RangeFaultExactlyBeyondTheTable : oneRow.wf = true ∧
    (topBound oneRow.witnessTable ≤ (2047 : Word).toNat ∧ 323 ≤ (2047 : Word).toNat ∧
      ∀ q ∈ trialPrimes, ¬ q.toNat ∣ (2047 : Word).toNat) ∧
    ¬ (topBound oneRow.witnessTable ≤ (2046 : Word).toNat ∧ 323 ≤ (2046 : Word).toNat ∧
      ∀ q ∈ trialPrimes, ¬ q.toNat ∣ (2046 : Word).toNat) := by
  refine ⟨by decide, ⟨by decide, by decide, ?_⟩, fun h => absurd h.1 (by decide)⟩
  simp [trialPrimes]
theorem witness_RomLayoutIsTheTable : defaultTable[8]?.map WitnessRow.bound = some (2 ^ 64) ∧
    (WitnessRow.mk 2047 [2]).witnesses[0]? = some 2 := by decide
theorem witness_SequencerComputesExec : defaultParams.wf = true ∧ Work.zero.seq = .start := by decide
theorem witness_SequencerStaysInTheRom : oneRow.wf = true ∧ Work.zero.seq = .start := by decide

/-- `MULMOD 5, 6, 0` one micro-step after its start. -/
def stepped : State := { busy 0 5 6 0 with work := microRun defaultParams 0 5 6 0 1 Work.zero, busyLeft := 1 }
theorem witness_WorkInvariantIsKept : stepped.WorkInv ∧ ∃ t, step stepped = .next t :=
  ⟨fun _ => ⟨1, Work.zero, rfl, rfl⟩, step_next _⟩
theorem witness_FinishedWorkIsTheAnswer : stepped.WorkInv ∧ stepped.cfg.wf = true ∧ stepped.phase = .busy ∧
    stepped.work.seq = .done 1 0 := ⟨fun _ => ⟨1, Work.zero, rfl, rfl⟩, by decide, rfl, by decide⟩
theorem offered_inv (e : Edge) : (offered e).RespInv := by
  intro _
  show ((0 : BitVec 2), (3 : Word)) = execPair defaultParams 0 7 9 10
  decide +kernel
theorem witness_ResponseInvariantIsKept : (offered take).RespInv ∧ ∃ t, step (offered take) = .next t :=
  ⟨offered_inv take, step_next _⟩
theorem witness_EveryResponseAnswersItsCommand : (offered take).RespInv ∧ (offered take).event = some (.delivered 0 3) :=
  ⟨offered_inv take, rfl⟩
/-- Two idle states whose latches, responses and working registers differ: the host cannot tell them apart. -/
theorem witness_DeadRegistersAreInvisible :
    SameToTheHost { State.reset with edges := [offer 0 7 9 10] }
      { offered (offer 0 7 9 10) with phase := .idle, work := lastRound, rspStatus := 2, busyLeft := 9 } :=
  ⟨rfl, rfl, rfl, rfl, rfl, fun h => absurd rfl h, fun h => absurd h (by decide), fun h => absurd h (by decide)⟩
theorem witness_EveryCommandCompletes :
    let s : State := { busy 2 331 0 0 with busyLeft := 1, edges := [Edge.quiet, Edge.quiet] }
    s.phase = .busy ∧ s.busyLeft < s.edges.length ∧ ∀ e ∈ s.edges.take (s.busyLeft + 1), e.rst = false :=
  ⟨rfl, by decide, by intro e he; simp at he; subst he; rfl⟩
theorem witness_InstructionsWriteOnlyTheResponse : ∃ t, exec (.powmod 2 10 0) State.reset = .next t := ⟨_, rfl⟩
theorem witness_FaultsCarryResultZero : (execPair defaultParams 0 5 6 0).1 ≠ 0 ∧ (execPair defaultParams 3 5 6 0).1 ≠ 0 ∧
    (execPair oneRow 2 2047 0 0).1 ≠ 0 := by decide +kernel

end Sys2Proof.Tests
end

section
/-! PROOF of O49. A two-run simulation: `SameToTheHost` is kept by each of the block's operations where it can
happen, hence by a step, and it fixes the observable event of the coming edge. -/

namespace Sys2Proof.Machine

/-! ## The rows of the table of R32, each as an equation -/

theorem takeEdge_of_rst {e : Edge} (s : State) (hr : e.rst = true) : takeEdge e s = .next s.resetEdge := by
  simp [takeEdge, hr]

theorem takeEdge_of_idle {e : Edge} {s : State} (hr : e.rst = false) (hp : s.phase = .idle) :
    takeEdge e s = .next (if e.cmdValid then s.accept e else s) := by
  cases hv : e.cmdValid <;> simp [takeEdge, hr, hp, hv]

theorem takeEdge_of_busy_due {e : Edge} {s : State} (hr : e.rst = false) (hp : s.phase = .busy)
    (hb : s.busyLeft = 0) :
    takeEdge e s = .next { s with rspStatus := s.answer.1, rspResult := s.answer.2, phase := .resp } := by
  simp [takeEdge, hr, hp, hb, complete_eq]

theorem takeEdge_of_busy_working {e : Edge} {s : State} (hr : e.rst = false) (hp : s.phase = .busy)
    (hb : s.busyLeft ≠ 0) : takeEdge e s = .next s.workOn := by
  simp [takeEdge, hr, hp, hb]

theorem takeEdge_of_resp {e : Edge} {s : State} (hr : e.rst = false) (hp : s.phase = .resp) :
    takeEdge e s = .next (if e.rspReady then s.deliver else s) := by
  cases hd : e.rspReady <;> simp [takeEdge, hr, hp, hd]

/-- The events of a run are those of its first edge and of the rest. -/
theorem trace_succ {s s' : State} (n : Nat) (h : step s = .next s') :
    trace (n + 1) s = s.event.toList ++ trace n s' := by
  simp only [trace, h]

/-- The answer owed depends on the parameters and the latched word only (R70). -/
theorem State.answer_eq_execWord (s : State) : s.answer = execWord s.cfg s.latchCmd := by
  rw [execWord, State.latchCmd, Cmd.op_ofFields, Cmd.a_ofFields, Cmd.b_ofFields, Cmd.m_ofFields, State.answer]

namespace SameToTheHost

variable {s t : State}

/-! ## What the two states share -/

theorem nextEdge_eq (h : SameToTheHost s t) : s.nextEdge = t.nextEdge := by
  obtain ⟨_, _, hedges, _⟩ := h
  rw [State.nextEdge, hedges, State.nextEdge]

theorem drawn_eq (h : SameToTheHost s t) : s.drawn = t.drawn := by
  obtain ⟨_, _, _, hsupply, hdraws, _⟩ := h
  rw [State.drawn, hsupply, hdraws, State.drawn]

/-- With a command in the block, both owe the same answer. -/
theorem answer_eq (h : SameToTheHost s t) (hp : s.phase ≠ .idle) : s.answer = t.answer := by
  obtain ⟨_, hcfg, _, _, _, hlatch, _⟩ := h
  rw [State.answer_eq_execWord, State.answer_eq_execWord, hcfg, hlatch hp]

theorem event_eq (h : SameToTheHost s t) : s.event = t.event := by
  have hedge := h.nextEdge_eq
  obtain ⟨hphase, _, _, _, _, _, _, hrsp⟩ := h
  unfold State.event
  rw [← hedge, ← hphase]
  cases hp : s.phase with
  | idle => rfl
  | busy => rfl
  | resp =>
    obtain ⟨hstatus, hresult⟩ := hrsp hp
    rw [hstatus, hresult]

/-! ## Each operation keeps it -/

theorem popEdge (h : SameToTheHost s t) : SameToTheHost s.popEdge t.popEdge := by
  obtain ⟨hphase, hcfg, hedges, hrest⟩ := h
  exact ⟨hphase, hcfg, congrArg List.tail hedges, hrest⟩

/-- After a reset the block is IDLE, where the latch, the count and the response are dead (R160). -/
theorem resetEdge (h : SameToTheHost s t) : SameToTheHost s.resetEdge t.resetEdge := by
  obtain ⟨_, hcfg, hedges, hsupply, hdraws, _⟩ := h
  exact ⟨rfl, hcfg, hedges, hsupply, congrArg (· + 1) hdraws, by simp, by simp, by simp⟩

/-- ACCEPT overwrites the latch and draws the latency, so neither stale one matters (R27). -/
theorem accept (h : SameToTheHost s t) (e : Edge) : SameToTheHost (s.accept e) (t.accept e) := by
  have hdrawn := h.drawn_eq
  obtain ⟨_, hcfg, hedges, hsupply, hdraws, _⟩ := h
  exact ⟨rfl, hcfg, hedges, congrArg List.tail hsupply, congrArg (· + 1) hdraws, fun _ => rfl, fun _ => hdrawn,
    by simp⟩

/-- A working edge moves dead registers only, and the count both share (R26). -/
theorem workOn (h : SameToTheHost s t) (hp : s.phase = .busy) : SameToTheHost s.workOn t.workOn := by
  obtain ⟨hphase, hcfg, hedges, hsupply, hdraws, hlatch, hleft, _⟩ := h
  exact ⟨hphase, hcfg, hedges, congrArg List.tail hsupply, congrArg (· + 1) hdraws, hlatch,
    fun _ => congrArg (· - 1) (hleft hp), by simp [hp]⟩

/-- COMPLETE overwrites the response by a function of what both share (R28). -/
theorem completed (h : SameToTheHost s t) (hp : s.phase = .busy) :
    SameToTheHost { s with rspStatus := s.answer.1, rspResult := s.answer.2, phase := .resp }
      { t with rspStatus := t.answer.1, rspResult := t.answer.2, phase := .resp } := by
  have hbusy : s.phase ≠ .idle := by simp [hp]
  have hanswer := h.answer_eq hbusy
  obtain ⟨_, hcfg, hedges, hsupply, hdraws, hlatch, _⟩ := h
  exact ⟨rfl, hcfg, hedges, hsupply, hdraws, fun _ => hlatch hbusy, by simp, fun _ => by simp [hanswer]⟩

/-- DELIVER leads to IDLE, where the latch and the response are dead (R29). -/
theorem deliver (h : SameToTheHost s t) : SameToTheHost s.deliver t.deliver := by
  obtain ⟨_, hcfg, hedges, hsupply, hdraws, _⟩ := h
  exact ⟨rfl, hcfg, hedges, hsupply, hdraws, by simp, by simp, by simp⟩

/-! ## A step keeps it, and so the host sees the same for ever -/

/-- At one edge the two states take the same row of the table of R32. -/
theorem takeEdge (h : SameToTheHost s t) (e : Edge) :
    ∃ s' t', Machine.takeEdge e s = .next s' ∧ Machine.takeEdge e t = .next t' ∧ SameToTheHost s' t' := by
  have ⟨hphase, _, _, _, _, _, hleft, _⟩ := h
  cases hr : e.rst with
  | true => exact ⟨_, _, takeEdge_of_rst s hr, takeEdge_of_rst t hr, h.resetEdge⟩
  | false =>
    cases hp : s.phase with
    | idle =>
      refine ⟨_, _, takeEdge_of_idle hr hp, takeEdge_of_idle hr (hphase ▸ hp), ?_⟩
      split
      · exact h.accept e
      · exact h
    | busy =>
      have hpt : t.phase = .busy := hphase ▸ hp
      by_cases hb : s.busyLeft = 0
      · exact ⟨_, _, takeEdge_of_busy_due hr hp hb, takeEdge_of_busy_due hr hpt (hleft hp ▸ hb), h.completed hp⟩
      · exact ⟨_, _, takeEdge_of_busy_working hr hp hb, takeEdge_of_busy_working hr hpt (hleft hp ▸ hb), h.workOn hp⟩
    | resp =>
      refine ⟨_, _, takeEdge_of_resp hr hp, takeEdge_of_resp hr (hphase ▸ hp), ?_⟩
      split
      · exact h.deliver
      · exact h

theorem step (h : SameToTheHost s t) :
    ∃ s' t', Machine.step s = .next s' ∧ Machine.step t = .next t' ∧ SameToTheHost s' t' := by
  unfold Machine.step
  rw [← h.nextEdge_eq]
  exact h.popEdge.takeEdge s.nextEdge

theorem trace_eq (n : Nat) (h : SameToTheHost s t) : trace n s = trace n t := by
  induction n generalizing s t with
  | zero => rfl
  | succ n ih =>
    obtain ⟨s', t', hs, ht, hnext⟩ := h.step
    rw [trace_succ n hs, trace_succ n ht, h.event_eq, ih hnext]

end SameToTheHost

end Sys2Proof.Machine

/-- Settles O49: `SameToTheHost` is kept by every step and fixes the event of each edge, by induction on the number
of edges. -/
theorem deadRegistersAreInvisible : Obligations.DeadRegistersAreInvisible :=
  fun n _ _ h => h.trace_eq n
end

section
/-! PROOF of the family '10_state.md'. First the rows of the table of R32 at the level of `step`, then what the
register-level machine leads to, then the two invariants, row by row; the obligations follow from these. -/

namespace Sys2Proof.Machine

/-! ## The rows of the table of R32 without a reset, each as an equation of `step` -/

section Rows

variable {s : State} (hr : s.nextEdge.rst = false)
include hr

theorem step_of_accept (hp : s.phase = .idle) (hv : s.nextEdge.cmdValid = true) :
    step s = .next (s.popEdge.accept s.nextEdge) := by
  rw [step, takeEdge_of_idle (s := s.popEdge) hr hp, if_pos hv]

/-- In BUSY with the work due the step is COMPLETE (R28). -/
theorem step_eq_complete (hp : s.phase = .busy) (hb : s.busyLeft = 0) : step s = complete s.popEdge := by
  simp [step, takeEdge, hr, hp, hb]

theorem step_of_complete (hp : s.phase = .busy) (hb : s.busyLeft = 0) :
    step s = .next { s.popEdge with rspStatus := s.answer.1, rspResult := s.answer.2, phase := .resp } :=
  (step_eq_complete hr hp hb).trans (complete_eq s.popEdge)

theorem step_of_deliver (hp : s.phase = .resp) (hd : s.nextEdge.rspReady = true) :
    step s = .next s.popEdge.deliver := by
  rw [step, takeEdge_of_resp (s := s.popEdge) hr hp, if_pos hd]

theorem step_of_not_taken (hp : s.phase = .resp) (hd : s.nextEdge.rspReady = false) :
    step s = .next s.popEdge := by
  rw [step, takeEdge_of_resp (s := s.popEdge) hr hp, if_neg (by simp [hd])]

end Rows

/-- COMPLETE runs the instruction that the latch decodes to (R28). -/
theorem complete_of_decode {s : State} {i : Instr} (h : decode s.latchCmd = some i) : complete s = exec i s := by
  rw [complete, h]

/-! ## What a step without a reset leaves unchanged (R25) -/

/-- Only ACCEPT writes the latch. -/
theorem step_keeps_latch {s t : State} (h : step s = .next t) (hr : s.nextEdge.rst = false)
    (hna : s.phase ≠ .idle ∨ s.nextEdge.cmdValid = false) : t.op = s.op ∧ t.a = s.a ∧ t.b = s.b ∧ t.m = s.m := by
  rcases step_cases h with ⟨hr', -⟩ | ⟨-, hp, hv, -⟩ | ⟨-, -, -, rfl⟩ | ⟨-, -, -, rfl⟩ | ⟨-, -, -, rfl⟩ |
    ⟨-, -, -, rfl⟩ | ⟨-, -, -, rfl⟩
  case inl => simp [hr] at hr'
  case inr.inl => simp [hp, hv] at hna
  all_goals exact ⟨rfl, rfl, rfl, rfl⟩

/-- Only COMPLETE writes the response registers. -/
theorem step_keeps_response {s t : State} (h : step s = .next t) (hr : s.nextEdge.rst = false)
    (hnc : s.phase ≠ .busy ∨ s.busyLeft ≠ 0) : t.rspStatus = s.rspStatus ∧ t.rspResult = s.rspResult := by
  rcases step_cases h with ⟨hr', -⟩ | ⟨-, -, -, rfl⟩ | ⟨-, -, -, rfl⟩ | ⟨-, hp, hb, -⟩ | ⟨-, -, -, rfl⟩ |
    ⟨-, -, -, rfl⟩ | ⟨-, -, -, rfl⟩
  case inl => simp [hr] at hr'
  case inr.inr.inr.inl => simp [hp, hb] at hnc
  all_goals exact ⟨rfl, rfl⟩

/-! ## The output ports (R30) -/

theorem State.cmdReady_iff (s : State) : s.cmdReady = true ↔ s.phase = .idle := decide_eq_true_iff

theorem State.rspValid_iff (s : State) : s.rspValid = true ↔ s.phase = .resp := decide_eq_true_iff

theorem State.rspPorts_of_valid {s : State} (hv : s.rspValid = true) :
    s.rspStatusPort = some s.rspStatus ∧ s.rspResultPort = some s.rspResult := ⟨if_pos hv, if_pos hv⟩

theorem State.rspPorts_of_not_valid {s : State} (hv : s.rspValid = false) :
    s.rspStatusPort = none ∧ s.rspResultPort = none ∧ s.rspPort = none := by
  simp [State.rspStatusPort, State.rspResultPort, State.rspPort, hv]

/-! ## A command placed by `withFetchWord` -/

@[simp] theorem State.withFetchWord_phase (s : State) (nbits w : Nat) : (s.withFetchWord nbits w).phase = .busy := rfl
@[simp] theorem State.withFetchWord_busyLeft (s : State) (nbits w : Nat) : (s.withFetchWord nbits w).busyLeft = 0 := rfl
@[simp] theorem State.withFetchWord_nextEdge (s : State) (nbits w : Nat) :
    (s.withFetchWord nbits w).nextEdge = Edge.quiet := rfl
@[simp] theorem State.withFetchWord_cfg (s : State) (nbits w : Nat) : (s.withFetchWord nbits w).cfg = s.cfg := rfl

/-- The latch holds the bits of the word that was placed. -/
theorem State.withFetchWord_latchCmd (s : State) (nbits w : Nat) :
    (s.withFetchWord nbits w).latchCmd = BitVec.ofNat 194 (w % 2 ^ nbits) := Cmd.ofFields_fields _

/-- A table word that decodes is read as the command word of its bits (R60). -/
theorem decode_of_decodeTableWord {nbits w : Nat} {i : Instr} (h : decodeTableWord nbits w = some i) :
    decode (BitVec.ofNat 194 (w % 2 ^ nbits)) = some i := by
  unfold decodeTableWord tableCmd at h
  split at h
  · exact h
  · cases h

/-! ## The register-level machine ends with `Exec` (R70, R166) -/

/-- `Exec` of an ISPRIME command is the answer to its verdict (R67, R70). -/
theorem execPair_isprime (cfg : Params) (p b m : Word) :
    execPair cfg 2 p b m = ((isprime cfg p).answer.1.code, (isprime cfg p).answer.2) := by
  cases h : isprime cfg p <;> simp [execPair, h, Verdict.answer]

/-- The sequencer is done with the answer that `Exec` gives. -/
def Work.HoldsExec (w : Work) (cfg : Params) (op : BitVec 2) (a b m : Word) : Prop :=
  w.seq = .done (execPair cfg op a b m).1 (execPair cfg op a b m).2

section Commands

variable {cfg : Params} {op : BitVec 2} {a b m : Word} {w w₁ w₂ : Work}

theorem microStep_start (hs : w.seq = .start) : microStep cfg op a b m w = w.dispatch op a b m := by
  rw [microStep, hs]

theorem mulmod_reaches (hs : w.seq = .start) : ∃ w', Reaches cfg 0 a b m w w' ∧ w'.HoldsExec cfg 0 a b m := by
  by_cases hm : m = 0#64
  · refine ⟨_, .step .refl, ?_⟩
    simp [microStep_start hs, Work.dispatch, Work.finish, Work.HoldsExec, execPair, hm]
  · obtain ⟨x, y, q, h⟩ := callMm_reaches (cfg := cfg) (op := 0) (a := a) (b := b) (m := m) .command w a b m
    have hstep : microStep cfg 0 a b m w = w.callMm .command a b m := by simp [microStep_start hs, Work.dispatch, hm]
    refine ⟨_, .step (hstep ▸ h), ?_⟩
    simp [Work.returnMm, Work.finish, Work.HoldsExec, execPair, hm]

theorem powmod_reaches (hs : w.seq = .start) : ∃ w', Reaches cfg 1 a b m w w' ∧ w'.HoldsExec cfg 1 a b m := by
  by_cases hm : m = 0#64
  · refine ⟨_, .step .refl, ?_⟩
    simp [microStep_start hs, Work.dispatch, Work.finish, Work.HoldsExec, execPair, hm]
  · obtain ⟨x, y, u, v, e, f, q, h⟩ :=
      callMe_reaches (cfg := cfg) (op := 1) (a := a) (b := b) (m := m) .command w a b m
    have hstep : microStep cfg 1 a b m w = w.callMe .command a b m := by simp [microStep_start hs, Work.dispatch, hm]
    refine ⟨_, .step (hstep ▸ h), ?_⟩
    simp [Work.returnMe, Work.finish, Work.HoldsExec, execPair, hm]

theorem isprime_command_reaches (hwf : cfg.wf = true) (hs : w.seq = .start) :
    ∃ w', Reaches cfg 2 a b m w w' ∧ w'.HoldsExec cfg 2 a b m := by
  obtain ⟨w', h, hfin⟩ := isprime_reaches (op := 2) (a := a) (b := b) (m := m) hwf { w with seq := .ptTrivial } rfl
  refine ⟨w', .step ?_, ?_⟩
  · simpa [microStep_start hs, Work.dispatch] using h
  · rw [Work.HoldsExec, execPair_isprime]
    exact hfin

/-- The reserved operation code is answered in the first micro-step (R64, R143). -/
theorem reserved_reaches (hs : w.seq = .start) : ∃ w', Reaches cfg 3 a b m w w' ∧ w'.HoldsExec cfg 3 a b m := by
  refine ⟨_, .step .refl, ?_⟩
  simp [microStep_start hs, Work.dispatch, Work.finish, Work.HoldsExec, execPair]

/-- Every command reaches a sequencer that holds `Exec` of it (R166). -/
theorem start_reaches_exec (hwf : cfg.wf = true) (hs : w.seq = .start) :
    ∃ w', Reaches cfg op a b m w w' ∧ w'.HoldsExec cfg op a b m := by
  rcases op_cases op with rfl | rfl | rfl | rfl
  · exact mulmod_reaches hs
  · exact powmod_reaches hs
  · exact isprime_command_reaches hwf hs
  · exact reserved_reaches hs

/-- A finished sequencer does not move. -/
theorem microRun_of_done {st : BitVec 2} {r : Word} (hd : w.seq = .done st r) (n : Nat) :
    microRun cfg op a b m n w = w := by
  induction n with
  | zero => rfl
  | succ n ih =>
    have hstep : microStep cfg op a b m w = w := by rw [microStep, hd]
    rw [microRun, hstep, ih]

/-- From one start there is one end: of two runs that finish, the longer one waits in the end of the shorter. -/
theorem Reaches.done_unique {st₁ st₂ : BitVec 2} {r₁ r₂ : Word} (h₁ : Reaches cfg op a b m w w₁)
    (hd₁ : w₁.seq = .done st₁ r₁) (h₂ : Reaches cfg op a b m w w₂) (hd₂ : w₂.seq = .done st₂ r₂) : w₁ = w₂ := by
  obtain ⟨n, rfl⟩ := h₁
  obtain ⟨k, rfl⟩ := h₂
  rw [← microRun_of_done hd₁ k, ← microRun_add, Nat.add_comm, microRun_add, microRun_of_done hd₂]

end Commands

/-! ## The invariant of the working registers -/

/-- Outside BUSY it says nothing (R26). -/
theorem State.WorkInv.of_not_busy {s : State} (hp : s.phase ≠ .busy) : s.WorkInv := fun h => absurd h hp

/-- ACCEPT puts the sequencer at the start of the command it latches (log 7). -/
theorem State.WorkInv.accept (s : State) (e : Edge) : (s.accept e).WorkInv :=
  fun _ => ⟨0, { s.work with seq := .start }, rfl, rfl⟩

/-- The micro-steps of a waiting edge add to those already taken (log 6). -/
theorem State.WorkInv.workOn {s : State} (h : s.WorkInv) : s.workOn.WorkInv := fun hp => by
  obtain ⟨n, w, hs, hw⟩ := h hp
  exact ⟨n + s.drawn, w, hs, by simp [hw, microRun_add]⟩

theorem State.WorkInv.step {s t : State} (h : s.WorkInv) (hst : step s = .next t) : t.WorkInv := by
  rcases step_cases hst with ⟨-, rfl⟩ | ⟨-, -, -, rfl⟩ | ⟨-, hp, -, rfl⟩ | ⟨-, -, -, rfl⟩ | ⟨-, -, -, rfl⟩ |
    ⟨-, -, -, rfl⟩ | ⟨-, hp, -, rfl⟩
  · exact .of_not_busy (by simp)
  · exact .accept s.popEdge s.nextEdge
  · exact .of_not_busy (by simp [hp])
  · exact .of_not_busy (by simp)
  · exact State.WorkInv.workOn (s := s.popEdge) h
  · exact .of_not_busy (by simp)
  · exact .of_not_busy (by simp [hp])

/-- With the invariant a finished sequencer holds `Exec` of the latch, the only end there is (R28). -/
theorem State.WorkInv.holdsExec {s : State} (h : s.WorkInv) (hwf : s.cfg.wf = true) (hp : s.phase = .busy)
    {st : BitVec 2} {r : Word} (hd : s.work.seq = .done st r) : s.work.HoldsExec s.cfg s.op s.a s.b s.m := by
  obtain ⟨n, w, hs, hw⟩ := h hp
  obtain ⟨w', hreach, hexec⟩ := start_reaches_exec (op := s.op) (a := s.a) (b := s.b) (m := s.m) hwf hs
  have hsame : s.work = w' := Reaches.done_unique ⟨n, hw.symm⟩ hd hreach hexec
  rwa [hsame]

/-! ## The invariant of the response -/

/-- Outside RESP it says nothing (R30). -/
theorem State.RespInv.of_not_resp {s : State} (hp : s.phase ≠ .resp) : s.RespInv := fun h => absurd h hp

/-- COMPLETE writes the answer owed and leaves the latch it is the answer to (R28). -/
theorem State.RespInv.completed (s : State) :
    State.RespInv { s with rspStatus := s.answer.1, rspResult := s.answer.2, phase := .resp } := fun _ => rfl

theorem State.RespInv.step {s t : State} (h : s.RespInv) (hst : step s = .next t) : t.RespInv := by
  rcases step_cases hst with ⟨-, rfl⟩ | ⟨-, -, -, rfl⟩ | ⟨-, -, -, rfl⟩ | ⟨-, -, -, rfl⟩ | ⟨-, hp, -, rfl⟩ |
    ⟨-, -, -, rfl⟩ | ⟨-, -, -, rfl⟩
  · exact .of_not_resp (by simp)
  · exact .of_not_resp (by simp)
  · exact h
  · exact .completed s.popEdge
  · exact .of_not_resp (by simp [hp])
  · exact .of_not_resp (by simp)
  · exact h

end Sys2Proof.Machine

/-! ## The obligations -/

open Sys2Proof Sys2Proof.Machine

/-- Settles O46, row by row: COMPLETE establishes the invariant, a response not taken keeps it, and every other row
ends outside RESP or changes nothing. -/
theorem responseInvariantIsKept : Obligations.ResponseInvariantIsKept :=
  fun _ _ h hst => h.step hst

/-- Settles O13: a step has a next state, and each of the seven rows of `step_cases` ends in its own `PHASE`. -/
theorem phaseTransitionTable : Obligations.PhaseTransitionTable := by
  intro s
  obtain ⟨t, h⟩ := step_next s
  refine ⟨t, h, ?_⟩
  rcases step_cases h with ⟨_, rfl⟩ | ⟨_, _, _, rfl⟩ | ⟨_, _, _, rfl⟩ | ⟨_, _, _, rfl⟩ | ⟨_, _, _, rfl⟩ |
    ⟨_, _, _, rfl⟩ | ⟨_, _, _, rfl⟩
  all_goals simp [*]

/-- Settles O15: the frame of a step for the latch and the one for the response registers. -/
theorem onlyTheNamedStepsWrite : Obligations.OnlyTheNamedStepsWrite :=
  fun _ _ h hr => ⟨step_keeps_latch h hr, step_keeps_response h hr⟩

/-- Settles O42: each of the four operation codes is run to its end by the lemma of its unit. -/
theorem sequencerComputesExec : Obligations.SequencerComputesExec := by
  intro cfg op a b m w hwf hs
  obtain ⟨_, ⟨n, rfl⟩, hexec⟩ := start_reaches_exec (op := op) (a := a) (b := b) (m := m) hwf hs
  exact ⟨n, hexec⟩

/-- Settles O44, row by row: ACCEPT starts the run, a waiting edge lengthens it, every other row ends outside BUSY. -/
theorem workInvariantIsKept : Obligations.WorkInvariantIsKept :=
  fun _ _ h hst => h.step hst

/-- Settles O45: from the start the invariant names, the run that ends with `Exec` is the only one that ends. -/
theorem finishedWorkIsTheAnswer : Obligations.FinishedWorkIsTheAnswer := by
  intro s st r h hwf hp hd
  have hexec := h.holdsExec hwf hp hd
  rw [Work.HoldsExec, hd] at hexec
  injection hexec with hst hres
  exact Prod.ext hst hres

/-- Settles O6: the step is COMPLETE, and COMPLETE decodes the latch. -/
theorem stepRunsTheLatchedCommand : Obligations.StepRunsTheLatchedCommand :=
  fun s _ hp hb hr hdec => (step_eq_complete hr hp hb).trans (complete_of_decode (s := s.popEdge) hdec)

/-- Settles O7, by the row COMPLETE of R32. -/
theorem completeAppliesExec : Obligations.CompleteAppliesExec :=
  fun _ hp hb hr => step_of_complete hr hp hb

/-- Settles O10, by the row ACCEPT of R32 and the fields of `State.accept`. -/
theorem acceptLatchesTheCommand : Obligations.AcceptLatchesTheCommand :=
  fun _ hp hr hv => ⟨_, step_of_accept hr hp hv, rfl, rfl, rfl, rfl, rfl, rfl, rfl, rfl, rfl, rfl⟩

/-- Settles O11, by the row DELIVER of R32. -/
theorem deliverFreesTheBlock : Obligations.DeliverFreesTheBlock :=
  fun _ hp hr hd => ⟨_, step_of_deliver hr hp hd, rfl, rfl, rfl, rfl⟩

/-- Settles O14, port by port; a response that is not taken is kept because the step keeps the state. -/
theorem outputsFollowThePhase : Obligations.OutputsFollowThePhase := by
  intro s
  refine ⟨s.cmdReady_iff, s.rspValid_iff, State.rspPorts_of_valid, State.rspPorts_of_not_valid, ?_, ?_⟩
  · intro hp
    simp [State.cmdReady, State.rspValid, hp]
  · intro hv hr hd
    exact ⟨_, step_of_not_taken hr (s.rspValid_iff.mp hv) hd, rfl, rfl⟩

/-- Settles O18: `State.reset` is IDLE, so its ports are those of R30. -/
theorem resetStateIsReady : Obligations.ResetStateIsReady := by
  have hv : State.reset.rspValid = false := rfl
  obtain ⟨-, -, hrsp⟩ := State.rspPorts_of_not_valid hv
  exact ⟨rfl, State.reset.cmdReady_iff.mpr rfl, hv, hrsp, rfl⟩

/-- Settles O19: the latch holds the placed word, the work is due and a quiet edge comes, so O6 applies. -/
theorem placedCommandRunsNext : Obligations.PlacedCommandRunsNext := by
  intro s nbits w i h
  have hdec : decode (s.withFetchWord nbits w).latchCmd = some i := by
    rw [State.withFetchWord_latchCmd]
    exact decode_of_decodeTableWord h
  have hr : (s.withFetchWord nbits w).nextEdge.rst = false := by rw [State.withFetchWord_nextEdge]; rfl
  exact ⟨stepRunsTheLatchedCommand _ i (s.withFetchWord_phase nbits w) (s.withFetchWord_busyLeft nbits w) hr hdec,
    s.withFetchWord_cfg nbits w⟩

/-- Settles O47: right after reset the block is in IDLE, where neither invariant says anything. -/
theorem invariantsHoldAtReset : Obligations.InvariantsHoldAtReset :=
  ⟨.of_not_resp (by decide), .of_not_busy (by decide)⟩
end

section
/-! PROOF of the family '20_memory.md': the parameters and the witness ROM laid out from them are constant, the layout
of the ROM, the bounds of the default table, and the micro-steps that read the ROM. -/

namespace Sys2Proof.Machine

/-! ## The parameters (R41) -/

/-- No row of the table of R32 writes the parameters. -/
theorem step_keeps_cfg {s t : State} (h : step s = .next t) : t.cfg = s.cfg := by
  rcases step_cases h with ⟨-, rfl⟩ | ⟨-, -, -, rfl⟩ | ⟨-, -, -, rfl⟩ | ⟨-, -, -, rfl⟩ | ⟨-, -, -, rfl⟩ |
    ⟨-, -, -, rfl⟩ | ⟨-, -, -, rfl⟩
  all_goals rfl

/-! ## The layout of the witness ROM (R42, R43) -/

/-- The words before row `k` are those of the first `k` rows. -/
theorem rowAddr_eq_length_wrom_take (t : List WitnessRow) (k : Nat) : rowAddr t k = (wrom (t.take k)).length := by
  simp [wrom, rowAddr, WitnessRow.words, List.length_flatMap]

theorem wrom_length (t : List WitnessRow) : (wrom t).length = rowAddr t t.length := by
  rw [rowAddr_eq_length_wrom_take, List.take_length]

theorem romRead_eq_none_iff (t : List WitnessRow) (addr : Nat) :
    romRead t addr = none ↔ rowAddr t t.length ≤ addr := by
  rw [romRead, List.getElem?_eq_none_iff, wrom_length]

section Row

variable {t : List WitnessRow} {k : Nat} {r : WitnessRow} (hk : t[k]? = some r)
include hk

/-- A row stands between the rows before it and the rows after it. -/
theorem table_split_at_row : t.take k ++ r :: t.drop (k + 1) = t := by
  obtain ⟨hlt, rfl⟩ := List.getElem?_eq_some_iff.mp hk
  rw [List.getElem_cons_drop, List.take_append_drop]

theorem romRead_rowAddr : romRead t (rowAddr t k) = some (WitnessRow.pmax r) := by
  have h := romRead_pmax (pre := t.take k) (post := t.drop (k + 1)) (r := r)
  rwa [table_split_at_row hk, ← rowAddr_eq_length_wrom_take] at h

theorem romRead_rowAddr_witness {i : Nat} {v : Word} (hi : r.witnesses[i]? = some v) :
    romRead t (rowAddr t k + 1 + i) = some v := by
  obtain ⟨hlt, rfl⟩ := List.getElem?_eq_some_iff.mp hi
  have hsplit : r.witnesses = r.witnesses.take i ++ r.witnesses[i] :: r.witnesses.drop (i + 1) := by
    rw [List.getElem_cons_drop, List.take_append_drop]
  have h := romRead_witness (pre := t.take k) (post := t.drop (k + 1)) hsplit
  rwa [table_split_at_row hk, ← rowAddr_eq_length_wrom_take, List.length_take_of_le hlt.le] at h

theorem romRead_rowAddr_sentinel : romRead t (rowAddr t k + 1 + r.witnesses.length) = some sentinel := by
  have h := romRead_sentinel (pre := t.take k) (post := t.drop (k + 1)) (r := r)
  rwa [table_split_at_row hk, ← rowAddr_eq_length_wrom_take] at h

theorem rowAddr_succ : rowAddr t (k + 1) = rowAddr t k + r.witnesses.length + 2 := by
  rw [rowAddr_eq_length_wrom_take, rowAddr_eq_length_wrom_take, List.take_add_one, hk, Option.toList_some,
    wrom_length_snoc]
  omega

end Row

/-! ## The witness test does not depend on the multiplier (R86) -/

section Multiplier

variable (wide : Bool) {p : Word} (hp : p ≠ 0)
include hp

theorem mulmod_eq_wide (x y : Word) : mulmod wide x y p = mulmod true x y p :=
  BitVec.eq_of_toNat_eq ((mulmod_toNat wide hp).trans (mulmod_toNat true hp).symm)

theorem powmod_eq_wide (x e : Word) : powmod wide x e p = powmod true x e p :=
  BitVec.eq_of_toNat_eq ((powmod_toNat wide hp).trans (powmod_toNat true hp).symm)

theorem squareLoop_eq_wide (n : Nat) (x : Word) : squareLoop wide p n x = squareLoop true p n x := by
  induction n generalizing x with
  | zero => rfl
  | succ n ih => simp only [squareLoop, mulmod_eq_wide wide hp, ih]

theorem satisfied_eq_wide (d : Word) (s : Nat) (v : Word) : satisfied wide p d s v = satisfied true p d s v := by
  simp only [satisfied, powmod_eq_wide wide hp, squareLoop_eq_wide wide hp]

end Multiplier

/-! ## The bounds of the default table (R52) -/

/-- A proper factor of the bound of each of the rows 0 to 7 of the default table. -/
def boundFactors : List Nat := [23, 829, 2251, 151, 6763, 1303, 10670053, 149491]

/-- The bound of a row, taken as the number to be tested (R110). -/
def WitnessRow.boundWord (r : WitnessRow) : Word := BitVec.ofNat 64 r.bound

/-- The bound of a row satisfies the witness `v` (R116, R117). -/
def WitnessRow.boundSatisfies (wide : Bool) (r : WitnessRow) (v : Word) : Bool :=
  let p := WitnessRow.boundWord r
  let ds := decompose 64 (p - 1) 0
  satisfied wide p ds.1 ds.2 v

/-- The bound of row `r` has the proper factor `f`, satisfies every witness of its row, and fails the last witness of
the next row `r'` (R52 (a)), with the wide multiplier. Stated with `List.all`, so that deciding it looks at the
witnesses of the row and not at every word. -/
def WitnessRow.TightBefore (r r' : WitnessRow) (f : Nat) : Prop :=
  (f ∣ r.bound ∧ 1 < f ∧ f < r.bound) ∧ WitnessRow.boundWord r ≠ 0 ∧
    r.witnesses.all (WitnessRow.boundSatisfies true r) = true ∧
    r'.witnesses.getLast?.map (WitnessRow.boundSatisfies true r) = some false

/-- The eight rows, computed one by one (R52 (a)). -/
theorem defaultTable_tight {k : Nat} (hk : k < 8) : ∃ r r' f, defaultTable[k]? = some r ∧
    defaultTable[k + 1]? = some r' ∧ boundFactors[k]? = some f ∧ WitnessRow.TightBefore r r' f := by
  interval_cases k
  all_goals
    refine ⟨_, _, _, rfl, rfl, rfl, ?_⟩
    unfold WitnessRow.TightBefore
    decide +kernel

/-! ## The micro-steps (R43) -/

section Commands

variable {cfg : Params} {op : BitVec 2} {a b m : Word} {w w₁ w₂ : Work}

/-- A sequencer that has asked for a word outside the ROM does not move. -/
theorem microRun_of_noWord (hn : w.seq = .noWord) (n : Nat) : microRun cfg op a b m n w = w := by
  induction n with
  | zero => rfl
  | succ n ih =>
    have hstep : microStep cfg op a b m w = w := by rw [microStep, hn]
    rw [microRun, hstep, ih]

/-- A run that finishes has never asked for a word outside the ROM: it would have stopped there. -/
theorem Reaches.not_noWord {st : BitVec 2} {r : Word} (h₁ : Reaches cfg op a b m w w₁)
    (hd : w₁.seq = .done st r) (h₂ : Reaches cfg op a b m w w₂) : w₂.seq ≠ .noWord := by
  intro hn
  obtain ⟨n, rfl⟩ := h₁
  obtain ⟨k, rfl⟩ := h₂
  have hsame : microRun cfg op a b m k w = microRun cfg op a b m n w := by
    rw [← microRun_of_noWord hn n, ← microRun_add, Nat.add_comm, microRun_add, microRun_of_done hd]
  rw [hsame, hd] at hn
  cases hn

end Commands

end Sys2Proof.Machine

/-! ## The obligations -/

open Sys2Proof Sys2Proof.Machine

/-- Settles O17, row by row of the table of R32; the ROM is laid out from the parameters alone. -/
theorem parametersAreConstant : Obligations.ParametersAreConstant := by
  intro s t h
  have hcfg := step_keeps_cfg h
  exact ⟨hcfg, by rw [hcfg]⟩

/-- Settles O40, by splitting the table at row `k`: the address of the row is the number of words before it. -/
theorem romLayoutIsTheTable : Obligations.RomLayoutIsTheTable := fun t =>
  ⟨rfl, wrom_length t, romRead_eq_none_iff t, fun _ _ hk =>
    ⟨romRead_rowAddr hk, fun _ _ hi => romRead_rowAddr_witness hk hi, romRead_rowAddr_sentinel hk, rowAddr_succ hk⟩⟩

/-- Settles O41: the tests are computed with the wide multiplier, with or without which they agree, and each bound is
composite by a factor that is given. -/
theorem defaultBoundsAreTight : Obligations.DefaultBoundsAreTight := by
  intro wide k hk
  obtain ⟨r, r', f, hr, hr', -, ⟨hdvd, hf, hlt⟩, hne, hall, hlast⟩ := defaultTable_tight hk
  obtain ⟨last, hlast', hfail⟩ := Option.map_eq_some_iff.mp hlast
  refine ⟨r, r', last, hr, hr', hlast', Nat.not_prime_of_dvd_of_lt hdvd hf hlt, fun v hv => ?_, ?_⟩
  · exact (satisfied_eq_wide wide hne _ _ v).trans (List.all_eq_true.mp hall v hv)
  · exact (satisfied_eq_wide wide hne _ _ last).trans hfail

/-- Settles O43: from the start every command finishes (O42), and a run that finishes has never left the ROM. -/
theorem sequencerStaysInTheRom : Obligations.SequencerStaysInTheRom := by
  intro cfg op a b m w n hwf hs
  obtain ⟨_, hreach, hexec⟩ := start_reaches_exec (op := op) (a := a) (b := b) (m := m) hwf hs
  exact hreach.not_noWord hexec ⟨n, rfl⟩
end

section
/-! PROOF of the family '30_encoding.md': the decoder and the encoder are inverse to each other, the operation code is
what the mask selects, `Exec` case by case, and what ISPRIME answers and ignores. -/

namespace Sys2Proof

open Sys2Proof.Machine Sys2Proof.Laws.OpMatch

/-! ## The decoder and the encoder (R60 to R63) -/

/-- An instruction is decoded from the word it is encoded to: the fields come back (R60) and the operation code
selects the constructor they came from (R61). -/
theorem decode_encode (i : Instr) : decode (encode i) = some i := by
  cases i with
  | mulmod a b m => exact decode_ofFields opMulmod a b m
  | powmod base exponent m => exact decode_ofFields opPowmod base exponent m
  | isprime p ignoredB ignoredM => exact decode_ofFields opIsprime p ignoredB ignoredM

/-- Decoded fields are all kept in the instruction, the ignored ones of ISPRIME too (log 10). -/
theorem encode_of_decodeFields {op : BitVec 2} {a b m : Word} {i : Instr} (h : decodeFields op a b m = some i) :
    encode i = Cmd.ofFields op a b m := by
  rcases op_cases op with rfl | rfl | rfl | rfl
  · exact congrArg encode (Option.some.inj h : Instr.mulmod a b m = i).symm
  · exact congrArg encode (Option.some.inj h : Instr.powmod a b m = i).symm
  · exact congrArg encode (Option.some.inj h : Instr.isprime a b m = i).symm
  · exact absurd h (Option.some_ne_none i).symm

theorem encode_of_decode {w : Cmd} {i : Instr} (h : decode w = some i) : encode i = w :=
  (encode_of_decodeFields h).trans (Cmd.ofFields_fields w)

/-! ## The operation code selects the operation (R61) -/

/-- Masking leaves the match value of a code exactly in the words with that code. -/
theorem and_opMask_eq_opMatch_iff (w : Cmd) (op : BitVec 2) : w &&& opMask = opMatch op ↔ Cmd.op w = op := by
  rw [and_opMask]
  exact ⟨opMatch_injective, congrArg opMatch⟩

theorem op_encode (i : Instr) : Cmd.op (encode i) = opOf i := by
  cases i with
  | mulmod a b m => exact Cmd.op_ofFields opMulmod a b m
  | powmod base exponent m => exact Cmd.op_ofFields opPowmod base exponent m
  | isprime p ignoredB ignoredM => exact Cmd.op_ofFields opIsprime p ignoredB ignoredM

/-- A word decodes only to instructions of its operation code. -/
theorem op_of_decode {w : Cmd} {i : Instr} (h : decode w = some i) : Cmd.op w = opOf i := by
  rw [← encode_of_decode h, op_encode]

section Rows

variable {w : Cmd}

theorem decode_of_op_zero (h : Cmd.op w = 0) : decode w = some (.mulmod (Cmd.a w) (Cmd.b w) (Cmd.m w)) := by
  rw [decode, h]; rfl

theorem decode_of_op_one (h : Cmd.op w = 1) : decode w = some (.powmod (Cmd.a w) (Cmd.b w) (Cmd.m w)) := by
  rw [decode, h]; rfl

theorem decode_of_op_two (h : Cmd.op w = 2) : decode w = some (.isprime (Cmd.a w) (Cmd.b w) (Cmd.m w)) := by
  rw [decode, h]; rfl

theorem decode_of_op_three (h : Cmd.op w = 3) : decode w = none := by
  rw [decode, h]; rfl

end Rows

/-- The reserved code is the only refused one (R64). -/
theorem decode_eq_none_iff (w : Cmd) : decode w = none ↔ Cmd.op w = 3 := by
  refine ⟨fun hnone => ?_, decode_of_op_three⟩
  rcases op_cases (Cmd.op w) with h | h | h | h
  · simp [decode_of_op_zero h] at hnone
  · simp [decode_of_op_one h] at hnone
  · simp [decode_of_op_two h] at hnone
  · exact h

end Sys2Proof

namespace Sys2Proof.Machine

/-- The response word as a number (R65). -/
theorem toNat_rspWord (st : BitVec 2) (r : Word) : (rspWord st r).toNat = st.toNat * 2 ^ 64 + r.toNat := by
  rw [rspWord, BitVec.toNat_append, ← Nat.shiftLeft_add_eq_or_of_lt r.isLt, Nat.shiftLeft_eq]

/-! ## `Exec` of the two operations with a modulus (R70) -/

section Modulus

variable (cfg : Params) (a b : Word) {m : Word}

theorem execPair_mulmod_of_ne_zero (hm : m ≠ 0) : execPair cfg 0 a b m = (0, mulmod cfg.hasWideMul a b m) :=
  if_neg hm

theorem execPair_powmod_of_ne_zero (hm : m ≠ 0) : execPair cfg 1 a b m = (0, powmod cfg.hasWideMul a b m) :=
  if_neg hm

end Modulus

/-! ## ISPRIME answers its verdict and reads one field (R63, R67) -/

/-- COMPLETE of ISPRIME writes the response registers and `PHASE`, from the verdict on `p` alone. -/
theorem exec_isprime (p b m : Word) (s : State) :
    exec (.isprime p b m) s = .next (s.respond (isprime s.cfg p).answer.1 (isprime s.cfg p).answer.2) := rfl

/-- No verdict is answered with `ERR_MOD_ZERO`. -/
theorem Verdict.answer_status_ne_errModZero (v : Verdict) : v.answer.1.code ≠ Status.errModZero.code := by
  cases v <;> decide

end Sys2Proof.Machine

/-! ## The obligations -/

open Sys2Proof Sys2Proof.Machine

/-- Settles O1, constructor by constructor in `decode_encode`; well-formedness asks nothing more. -/
theorem commandWordRoundTrip : Obligations.CommandWordRoundTrip :=
  fun i _ => decode_encode i

/-- Settles O2: the instruction keeps the four fields, and a word is assembled from its fields. -/
theorem decodedWordEncodesBack : Obligations.DecodedWordEncodesBack :=
  fun _ _ h => encode_of_decode h

/-- Settles O3: a masked word tells its operation code, and the code tells what the word decodes to. -/
theorem operationByMaskAndMatch : Obligations.OperationByMaskAndMatch := by
  refine ⟨by decide, toNat_opMatch, fun w => ?_⟩
  simp only [and_opMask_eq_opMatch_iff]
  refine ⟨⟨?_, fun h => ⟨_, _, _, decode_of_op_zero h⟩⟩, ⟨?_, fun h => ⟨_, _, _, decode_of_op_one h⟩⟩,
    ⟨?_, fun h => ⟨_, _, _, decode_of_op_two h⟩⟩, decode_eq_none_iff w, Cmd.op w, rfl, fun _ h => h.symm⟩
  all_goals
    rintro ⟨_, _, _, h⟩
    exact op_of_decode h

/-- Settles O4, by the numbers the two words stand for and the four fields of an assembled word. -/
theorem commandAndResponseBitLayout : Obligations.CommandAndResponseBitLayout :=
  ⟨fun op a b m => ⟨Cmd.toNat_ofFields op a b m, Cmd.op_ofFields op a b m, Cmd.a_ofFields op a b m,
    Cmd.b_ofFields op a b m, Cmd.m_ofFields op a b m⟩, toNat_rspWord⟩

/-- Settles O5: the first three words are the encodings of what the vectors list, the last has the reserved code. -/
theorem sampleCommandWordsDecode : Obligations.SampleCommandWordsDecode :=
  ⟨decode_encode (.mulmod 7 9 10), decode_encode (.powmod 2 10 1000), decode_encode (.isprime 331 0xDEADBEEF 0),
    decode_of_op_three (by decide)⟩

/-- Settles O8, test by test in the order of R70; the code of ISPRIME by its verdict. -/
theorem execFollowsThePseudocode : Obligations.ExecFollowsThePseudocode := by
  intro cfg a b m
  refine ⟨rfl, rfl, execPair_mulmod_of_ne_zero cfg a b, rfl, execPair_powmod_of_ne_zero cfg a b, ?_, ?_, ?_⟩
  all_goals
    intro hv
    rw [execPair_isprime, hv]
    rfl

/-- Settles O30: the response is `Verdict.answer` of the verdict. -/
theorem isprimeAnswersTheVerdict : Obligations.IsprimeAnswersTheVerdict := by
  intro p b m s
  refine ⟨_, _, exec_isprime p b m s, ?_, ?_, ?_⟩
  all_goals
    intro hv
    rw [hv]
    exact ⟨rfl, rfl⟩

/-- Settles O31: neither `exec_isprime` nor `execPair_isprime` mentions the fields b and m. -/
theorem isprimeIgnoresFieldsBAndM : Obligations.IsprimeIgnoresFieldsBAndM := by
  intro p b m b' m' s cfg
  refine ⟨by rw [exec_isprime, exec_isprime], by rw [execPair_isprime, execPair_isprime], ?_,
    Cmd.b_ofFields opIsprime p 0 0, Cmd.m_ofFields opIsprime p 0 0, fun u e hb hm => ?_⟩
  · rw [execPair_isprime]
    exact Verdict.answer_status_ne_errModZero (isprime cfg p)
  · exact ⟨(u.accept_b e).trans hb, (u.accept_m e).trans hm⟩
end

section
/-! PROOF of the family '40_mulmod.md': the sum of `addmod` and its 64-bit form, the three paths of `mulmod`, one round
of the loop at register level, and that no response of the block depends on the wide multiplier. -/

namespace Sys2Proof.Machine

/-! ## The 65-bit sum and its 64-bit form (R85) -/

/-- The sum of two words fits 65 bits. -/
theorem toNat_add_setWidth (x y : Word) : (x.setWidth 65 + y.setWidth 65).toNat = x.toNat + y.toNat := by
  have hx := x.isLt
  have hy := y.isLt
  rw [BitVec.toNat_add, BitVec.toNat_setWidth, BitVec.toNat_setWidth]
  omega

/-- `m - y` is the room left above `y`: the sum reaches `m` exactly when `x` fills it. -/
theorem addmod_eq_ite {x y m : Word} (hx : x < m) (hy : y < m) :
    addmod x y m = if m - y ≤ x then x - (m - y) else x + y := by
  have hm := m.isLt
  have hroom : (m - y).toNat = m.toNat - y.toNat := BitVec.toNat_sub_of_le (BitVec.le_of_lt hy)
  rw [BitVec.lt_def] at hx hy
  apply BitVec.eq_of_toNat_eq
  rw [addmod_toNat hx hy]
  split
  next h =>
    rw [BitVec.toNat_sub_of_le h, hroom]
    rw [BitVec.le_def, hroom] at h
    rw [Nat.mod_eq_sub_mod (by omega), Nat.mod_eq_of_lt (by omega)]
    omega
  next h =>
    rw [BitVec.le_def, hroom] at h
    rw [BitVec.toNat_add_of_lt (by omega), Nat.mod_eq_of_lt (by omega)]

/-! ## The paths of `mulmod` (R83, R84, R87) -/

/-- The product of two 28-bit operands has 56 bits (R83). -/
theorem toNat_mul_lt_of_fitsFast {x y : Word} (h : fitsFast x y = true) : x.toNat * y.toNat < 2 ^ 56 := by
  simp only [fitsFast, Bool.and_eq_true, decide_eq_true_eq, BitVec.le_def] at h
  obtain ⟨hx, hy⟩ := h
  calc x.toNat * y.toNat ≤ fastMax.toNat * fastMax.toNat := Nat.mul_le_mul hx hy
    _ < 2 ^ 56 := by decide

/-- The whole general path, from `r = 0` (R84). -/
theorem mulLoop_zero_toNat {x m : Word} (y : Word) (hx : x < m) :
    (mulLoop m 64 0 x y).toNat = x.toNat * y.toNat % m.toNat := by
  have h0 : (0 : Word) < m := BitVec.lt_def.mpr (Nat.zero_lt_of_lt hx)
  simpa using mulLoop_toNat 64 0 x y h0 hx y.isLt

/-- The contract of `mulmod` as a test of its value (R80). -/
theorem mulmod_eq_iff (wide : Bool) {a b m r : Word} (hm : m ≠ 0) :
    mulmod wide a b m = r ↔ a.toNat * b.toNat % m.toNat = r.toNat := by
  rw [← BitVec.toNat_inj, mulmod_toNat wide hm]

/-! ## One round of double-and-add (R84, R87) -/

/-- A round takes the low bit of `y` into `r` and leaves the other bits to the doubled `x`. -/
theorem mulRound_modEq {r x m : Word} (y : Word) (hr : r < m) (hx : x < m) :
    (mulAcc r x y m).toNat + (addmod x x m).toNat * (y >>> 1).toNat ≡ r.toNat + x.toNat * y.toNat [MOD m.toNat] := by
  have hacc : (mulAcc r x y m).toNat ≡ r.toNat + (y.getLsbD 0).toNat * x.toNat [MOD m.toNat] := by
    rw [mulAcc_toNat hr hx]
    exact Nat.mod_modEq _ _
  have hdouble : (addmod x x m).toNat ≡ x.toNat + x.toNat [MOD m.toNat] := by
    rw [addmod_toNat hx hx]
    exact Nat.mod_modEq _ _
  calc (mulAcc r x y m).toNat + (addmod x x m).toNat * (y >>> 1).toNat
      ≡ r.toNat + (y.getLsbD 0).toNat * x.toNat + (x.toNat + x.toNat) * (y >>> 1).toNat [MOD m.toNat] :=
        hacc.add (hdouble.mul_right _)
    _ = r.toNat + x.toNat * (2 * (y >>> 1).toNat + (y.getLsbD 0).toNat) := by ring
    _ = r.toNat + x.toNat * y.toNat := by rw [← toNat_low_bit]

/-- Halving makes a word that is not 0 smaller, so the loop ends. -/
theorem ushiftRight_one_lt {y : Word} (hy : y ≠ 0) : y >>> 1 < y := by
  have hpos : y.toNat ≠ 0 := BitVec.toNat_ne.mp hy
  have hbit := toNat_low_bit y
  rw [BitVec.lt_def]
  omega

theorem microStep_mmLoop (cfg : Params) (op : BitVec 2) (a b m : Word) {w : Work} {c : MmCaller}
    (hs : w.seq = .mmLoop c) (hb : w.mmB ≠ 0) : microStep cfg op a b m w =
      { w with mmR := mulAcc w.mmR w.mmA w.mmB w.mmM, mmA := addmod w.mmA w.mmA w.mmM, mmB := w.mmB >>> 1 } := by
  simp only [microStep, hs, Work.mmLoop, if_neg hb]

/-! ## `Exec` of a command with a fault (R64, R70) -/

section Faults

variable (cfg : Params) (a b : Word)

theorem execPair_mulmod_zero : execPair cfg 0 a b 0 = (1, 0) := rfl

theorem execPair_powmod_zero : execPair cfg 1 a b 0 = (1, 0) := rfl

theorem execPair_reserved (m : Word) : execPair cfg 3 a b m = (2, 0) := rfl

end Faults

/-! ## No answer depends on the multiplier (R86) -/

section Multiplier

variable (wide : Bool) (t : List WitnessRow)

theorem strongTest_eq_wide {p : Word} (hp : p ≠ 0) (ws : List Word) : strongTest wide p ws = strongTest true p ws := by
  simp only [strongTest, funext (satisfied_eq_wide wide hp _ _)]

/-- Steps 4 to 7 of ISPRIME multiply modulo `p`; they are reached with `p` at least 31. -/
theorem isprime_eq_wide (p : Word) : isprime ⟨wide, t⟩ p = isprime ⟨true, t⟩ p := by
  by_cases h : p < trivialLimit
  · rw [isprime, isprime, if_pos h, if_pos h]
  · have hp : p ≠ 0 := by
      rintro rfl
      exact h (by decide)
    simp only [isprime, witnessStages, strongTest_eq_wide wide hp]

theorem execPair_eq_wide (op : BitVec 2) (a b m : Word) :
    execPair ⟨wide, t⟩ op a b m = execPair ⟨true, t⟩ op a b m := by
  rcases op_cases op with rfl | rfl | rfl | rfl
  · by_cases hm : m = 0
    · rw [hm, execPair_mulmod_zero, execPair_mulmod_zero]
    · rw [execPair_mulmod_of_ne_zero _ _ _ hm, execPair_mulmod_of_ne_zero _ _ _ hm, mulmod_eq_wide _ hm]
  · by_cases hm : m = 0
    · rw [hm, execPair_powmod_zero, execPair_powmod_zero]
    · rw [execPair_powmod_of_ne_zero _ _ _ hm, execPair_powmod_of_ne_zero _ _ _ hm, powmod_eq_wide _ hm]
  · rw [execPair_isprime, execPair_isprime, isprime_eq_wide]
  · rw [execPair_reserved, execPair_reserved]

end Multiplier

/-! ## COMPLETE of MULMOD (R80) -/

theorem exec_mulmod_of_ne_zero (a b : Word) {m : Word} (hm : m ≠ 0) (s : State) :
    exec (.mulmod a b m) s = .next (s.respond .ok (mulmod s.cfg.hasWideMul a b m)) := if_neg hm

theorem exec_mulmod_zero (a b : Word) (s : State) : exec (.mulmod a b 0) s = .next (s.respond .errModZero 0) := rfl

end Sys2Proof.Machine

/-! ## The obligations -/

open Sys2Proof Sys2Proof.Machine

/-- Settles O20: the value is `mulmod`, whose contract is `mulmod_toNat`; the modulus 0 is tested first. -/
theorem mulmodAnswersTheExactResidue : Obligations.MulmodAnswersTheExactResidue := by
  intro a b m s
  refine ⟨op_encode (.mulmod a b m), fun hm => ?_, fun hm => ?_⟩
  · exact ⟨_, exec_mulmod_of_ne_zero a b hm s, mulmod_toNat _ hm, mulmod_lt _ hm⟩
  · subst hm
    exact exec_mulmod_zero a b s

/-- Settles O21, path by path. -/
theorem mulmodPathsMeetTheContract : Obligations.MulmodPathsMeetTheContract := fun _ hm =>
  ⟨fun wide _ _ => mulmod_toNat wide hm, fun _ _ h => ⟨toNat_mul_lt_of_fitsFast h, mulFast_toNat h⟩,
    fun _ _ => mulWide_toNat hm, fun _ y hx => mulLoop_zero_toNat y hx⟩

/-- Settles O22: the micro-step is one round on `MM_R`, `MM_A` and `MM_B`. -/
theorem doubleAndAddKeepsItsInvariant : Obligations.DoubleAndAddKeepsItsInvariant := by
  intro cfg op a b m w c hs hb hres
  obtain ⟨hm, hR, hA, hB⟩ := hres
  have hlt : w.mmB >>> 1 < w.mmB := ushiftRight_one_lt hb
  rw [microStep_mmLoop cfg op a b m hs hb]
  exact ⟨hs, ⟨hm, mulAcc_lt hR hA, addmod_lt hA hA, BitVec.lt_trans hlt hB⟩, rfl, hlt, mulRound_modEq w.mmB hR hA⟩

/-- Settles O23. -/
theorem addmodIsExact : Obligations.AddmodIsExact := fun x y _ hx hy =>
  ⟨toNat_add_setWidth x y, addmod_toNat hx hy, addmod_lt hx hy, addmod_eq_ite hx hy⟩

/-- Settles O24: with the multiplier or without, the answer is the one with it. -/
theorem wideMultiplierIsInvisible : Obligations.WideMultiplierIsInvisible := fun t op a b m =>
  (execPair_eq_wide false t op a b m).symm

/-- Settles O25: by `mulmod_eq_iff` each value is a remainder of natural numbers. -/
theorem mulmodCornerCases : Obligations.MulmodCornerCases := by
  refine ⟨fun wide x m hm => ⟨?_, ?_⟩, fun wide a b => ?_, ?_, ?_, ?_⟩
  · exact (mulmod_eq_iff wide hm).mpr (by simp)
  · exact (mulmod_eq_iff wide hm).mpr (by simp)
  · exact (mulmod_eq_iff wide (by decide)).mpr (Nat.mod_one _)
  all_goals exact (mulmod_eq_iff false (by decide)).mpr (by decide)

/-- Settles O51: every instruction ends in `State.respond`, which writes those three fields. -/
theorem instructionsWriteOnlyTheResponse : Obligations.InstructionsWriteOnlyTheResponse := by
  intro i s t h
  obtain ⟨st, r, hresp⟩ := exec_responds i s
  rw [hresp] at h
  cases h
  rfl
end

section
/-! PROOF of the family '41_powmod.md': the square-and-multiply loop, the value of `powmod` and its corner cases, and
what COMPLETE answers for POWMOD. -/

namespace Sys2Proof.Machine

/-! ## The loop (R101, R104) -/

/-- One round more is not used: with or without it the loop has the same value to compute. -/
theorem powLoop_succ (wide : Bool) {n : Nat} {r e m : Word} (x : Word) (hm : m ≠ 0) (hr : r < m)
    (he : e.toNat < 2 ^ n) : powLoop wide m (n + 1) r x e = powLoop wide m n r x e := by
  have he' : e.toNat < 2 ^ (n + 1) := he.trans (Nat.pow_lt_pow_succ Nat.one_lt_two)
  apply BitVec.eq_of_toNat_eq
  rw [powLoop_toNat wide hm (n + 1) r x e hr he', powLoop_toNat wide hm n r x e hr he]

/-! ## The value of `powmod` (R100, R103) -/

/-- The contract of `powmod` as a test of its value (R100). -/
theorem powmod_eq_iff (wide : Bool) {a e m r : Word} (hm : m ≠ 0) :
    powmod wide a e m = r ↔ a.toNat ^ e.toNat % m.toNat = r.toNat := by
  rw [← BitVec.toNat_inj, powmod_toNat wide hm]

theorem powmod_lt (wide : Bool) (a e : Word) {m : Word} (hm : m ≠ 0) : powmod wide a e m < m := by
  rw [BitVec.lt_def, powmod_toNat wide hm]
  exact Nat.mod_lt _ (Nat.pos_of_ne_zero (BitVec.toNat_ne.mp hm))

theorem powmod_zero_exponent_toNat (wide : Bool) (a : Word) {m : Word} (hm : m ≠ 0) :
    (powmod wide a 0 m).toNat = 1 % m.toNat := by
  have hzero : (0 : Word).toNat = 0 := rfl
  rw [powmod_toNat wide hm, hzero, pow_zero]

theorem powmod_zero_base (wide : Bool) {e m : Word} (hm : m ≠ 0) (he : e ≠ 0) : powmod wide 0 e m = 0 := by
  have hzero : (0 : Word).toNat = 0 := rfl
  rw [powmod_eq_iff wide hm, hzero, zero_pow (BitVec.toNat_ne.mp he), Nat.zero_mod]

theorem powmod_modulus_one (wide : Bool) (a e : Word) : powmod wide a e 1 = 0 :=
  (powmod_eq_iff wide (by decide)).mpr (Nat.mod_one _)

/-- Reducing the base first changes nothing (R103 c). -/
theorem powmod_mod_base (wide : Bool) (a e : Word) {m : Word} (hm : m ≠ 0) :
    powmod wide (a % m) e m = powmod wide a e m := by
  rw [powmod_eq_iff wide hm, powmod_toNat wide hm, BitVec.toNat_umod, ← Nat.pow_mod]

theorem powmod_one_exponent (wide : Bool) (a : Word) {m : Word} (hm : m ≠ 0) : powmod wide a 1 m = a % m := by
  have hone : (1 : Word).toNat = 1 := rfl
  rw [powmod_eq_iff wide hm, hone, pow_one, BitVec.toNat_umod]

/-! ## COMPLETE of POWMOD (R100) -/

theorem exec_powmod_of_ne_zero (base exponent : Word) {m : Word} (hm : m ≠ 0) (s : State) :
    exec (.powmod base exponent m) s = .next (s.respond .ok (powmod s.cfg.hasWideMul base exponent m)) := if_neg hm

theorem exec_powmod_zero (base exponent : Word) (s : State) :
    exec (.powmod base exponent 0) s = .next (s.respond .errModZero 0) := rfl

end Sys2Proof.Machine

/-! ## The obligations -/

open Sys2Proof Sys2Proof.Machine

/-- Settles O26: the value is `powmod`, whose contract is `powmod_toNat`; the modulus 0 is tested first. -/
theorem powmodAnswersTheExactPower : Obligations.PowmodAnswersTheExactPower := by
  intro base exponent m s
  refine ⟨op_encode (.powmod base exponent m), fun hm => ?_, fun hm => ?_⟩
  · exact ⟨_, exec_powmod_of_ne_zero base exponent hm s, powmod_toNat _ hm, powmod_lt _ _ _ hm⟩
  · subst hm
    exact exec_powmod_zero base exponent s

/-- Settles O27: the loop's invariant is `powLoop_toNat`, and the value it gives does not depend on the rounds. -/
theorem squareAndMultiplyLoopIsExact : Obligations.SquareAndMultiplyLoopIsExact := fun wide n r x e _ hm hr he =>
  ⟨powLoop_toNat wide hm n r x e hr he, powLoop_succ wide x hm hr he⟩

/-- Settles O28; the listed values are remainders of 1. -/
theorem exponentZeroGivesOneModM : Obligations.ExponentZeroGivesOneModM := by
  refine ⟨fun wide x m hm => powmod_zero_exponent_toNat wide x hm, fun wide => ⟨?_, ?_, ?_⟩⟩
  · exact (powmod_eq_iff wide (by decide)).mpr (by decide)
  · exact (powmod_eq_iff wide (by decide)).mpr (by decide)
  · exact powmod_modulus_one wide 5 0

/-- Settles O29, case by case of R103. -/
theorem powmodCornerCases : Obligations.PowmodCornerCases :=
  ⟨fun wide _ _ hm hk => powmod_zero_base wide hm hk, powmod_modulus_one,
    fun wide x k _ hm => (powmod_mod_base wide x k hm).symm, fun wide x _ hm => powmod_one_exponent wide x hm,
    fun cfg x => execPair_powmod_zero cfg x 0⟩
end

section
/-! PROOF of the family '42_isprime.md': what each step of ISPRIME decides, the row that is selected, the decomposition,
the test of one witness as the strong-pseudoprime condition, and when the verdict is primality. -/

namespace Sys2Proof.Machine

/-! ## Which step answers (R119) -/

section Steps

variable (cfg : Params) {p : Word}

theorem isprime_of_lt_trivialLimit (h : p < trivialLimit) : isprime cfg p = trivialVerdict p := if_pos h

theorem isprime_of_trialDivides (h₁ : ¬ p < trivialLimit) (h₂ : trialDivides p = true) :
    isprime cfg p = .notPrime := by
  rw [isprime, if_neg h₁, if_pos h₂]

theorem isprime_of_lt_smallFloor (h₁ : ¬ p < trivialLimit) (h₂ : trialDivides p = false) (h₃ : p < smallFloor) :
    isprime cfg p = .prime := by
  rw [isprime, if_neg h₁, if_neg (Bool.eq_false_iff.mp h₂), if_pos h₃]

theorem isprime_of_not_lt_smallFloor (h₁ : ¬ p < trivialLimit) (h₂ : trialDivides p = false)
    (h₃ : ¬ p < smallFloor) : isprime cfg p = witnessStages cfg p := by
  rw [isprime, if_neg h₁, if_neg (Bool.eq_false_iff.mp h₂), if_neg h₃]

end Steps

theorem ne_zero_of_toNat_pos {p : Word} (h : 0 < p.toNat) : p ≠ 0 := by
  rintro rfl
  exact absurd h (by decide)

/-- The numbers that steps 1 to 3 leave to the witnesses (R121). -/
def Undecided (p : Word) : Prop := 323 ≤ p.toNat ∧ ∀ q ∈ trialPrimes, ¬ q.toNat ∣ p.toNat

/-! ## Steps 1 to 3 (R111 to R113, R121) -/

/-- The verdict on `n` is primality of `n`. -/
def Verdict.Decides (v : Verdict) (n : Nat) : Prop :=
  (v = .prime ↔ n.Prime) ∧ (v = .notPrime ↔ ¬ n.Prime)

theorem Verdict.decides_prime {n : Nat} (h : n.Prime) : Verdict.prime.Decides n := by simp [Decides, h]

theorem Verdict.decides_notPrime {n : Nat} (h : ¬ n.Prime) : Verdict.notPrime.Decides n := by simp [Decides, h]

/-- A verdict that decides is one of the two correct answers. -/
theorem Verdict.Decides.correct {v : Verdict} {n : Nat} (h : v.Decides n) :
    (v = .prime ∧ n.Prime) ∨ (v = .notPrime ∧ ¬ n.Prime) := by
  obtain ⟨hprime, hnot⟩ := h
  by_cases hn : n.Prime
  · exact .inl ⟨hprime.mpr hn, hn⟩
  · exact .inr ⟨hnot.mpr hn, hn⟩

/-- A verdict that decides is a verdict in range. -/
theorem Verdict.Decides.ne_outOfRange {v : Verdict} {n : Nat} (h : v.Decides n) : v ≠ .outOfRange := by
  rintro rfl
  rcases h.correct with ⟨hv, -⟩ | ⟨hv, -⟩ <;> cases hv

theorem trivialVerdict_decides {p : Word} (h : p < trivialLimit) : (trivialVerdict p).Decides p.toNat := by
  have hcorrect := trivial_correct p h
  by_cases hp : p.toNat.Prime
  · rw [hcorrect.mpr hp]
    exact Verdict.decides_prime hp
  · have hnot : trivialVerdict p = .notPrime := if_neg fun hbit => hp (hcorrect.mp (if_pos hbit))
    rw [hnot]
    exact Verdict.decides_notPrime hp

/-- From 31 on the exception of step 2 is not used: no trial prime is so large (R112). -/
theorem trialDivides_iff {p : Word} (h : ¬ p < trivialLimit) :
    trialDivides p = true ↔ ∃ q ∈ trialPrimes, q.toNat ∣ p.toNat := by
  have hsmall : ∀ q ∈ trialPrimes, q < trivialLimit := by simp [trialPrimes, trivialLimit]
  have hne : ∀ q ∈ trialPrimes, p ≠ q := by
    rintro q hq rfl
    exact h (hsmall p hq)
  simp only [trialDivides, List.any_eq_true, trialHit_iff]
  exact ⟨fun ⟨q, hq, hdvd, _⟩ => ⟨q, hq, hdvd⟩, fun ⟨q, hq, hdvd⟩ => ⟨q, hq, hdvd, hne q hq⟩⟩

theorem exists_trialPrime_dvd : ∀ f < 19, 2 ≤ f → ∃ q ∈ trialPrimes, q.toNat ∣ f := by
  simp only [trialPrimes, List.exists_mem_cons_iff, List.not_mem_nil, false_and, exists_false, or_false]
  decide

/-- A composite below `19 * 19` has a factor below 19, and with it a trial prime as divisor (R121). -/
theorem prime_of_no_trialPrime_dvd {n : Nat} (h2 : 2 ≤ n) (hn : n < 19 * 19)
    (hno : ∀ q ∈ trialPrimes, ¬ q.toNat ∣ n) : n.Prime := by
  by_contra hcomp
  have hsq : n.minFac ^ 2 ≤ n := Nat.minFac_sq_le_self (by omega) hcomp
  have hlt : n.minFac < 19 := by nlinarith
  have hge : 2 ≤ n.minFac := (Nat.minFac_prime (by omega)).two_le
  obtain ⟨q, hq, hdvd⟩ := exists_trialPrime_dvd n.minFac hlt hge
  exact hno q hq (hdvd.trans n.minFac_dvd)

/-- Steps 1 to 3 decide primality of every number they do not leave to the witnesses (R121). -/
theorem isprime_decides_of_not_undecided (cfg : Params) {p : Word} (h : ¬ Undecided p) :
    (isprime cfg p).Decides p.toNat := by
  by_cases h₁ : p < trivialLimit
  · rw [isprime_of_lt_trivialLimit cfg h₁]
    exact trivialVerdict_decides h₁
  cases h₂ : trialDivides p with
  | true =>
    rw [isprime_of_trialDivides cfg h₁ h₂]
    exact Verdict.decides_notPrime fun hp => by simp [trialDivides_false_of_prime hp] at h₂
  | false =>
    have hno : ∀ q ∈ trialPrimes, ¬ q.toNat ∣ p.toNat := fun q hq hdvd => by
      simp [(trialDivides_iff h₁).mpr ⟨q, hq, hdvd⟩] at h₂
    have hlt : p.toNat < 323 := by
      by_contra hge
      exact h ⟨Nat.le_of_not_lt hge, hno⟩
    have hge : 31 ≤ p.toNat := Nat.le_of_not_lt h₁
    rw [isprime_of_lt_smallFloor cfg h₁ h₂ hlt]
    exact Verdict.decides_prime (prime_of_no_trialPrime_dvd (by omega) (by omega) hno)

/-- The others are left to steps 4 to 7. -/
theorem isprime_of_undecided (cfg : Params) {p : Word} (h : Undecided p) : isprime cfg p = witnessStages cfg p := by
  obtain ⟨hge, hno⟩ := h
  have hfloor : ¬ p < smallFloor := Nat.not_lt.mpr hge
  have h₁ : ¬ p < trivialLimit := fun hlt => hfloor (BitVec.lt_trans hlt (by decide))
  refine isprime_of_not_lt_smallFloor cfg h₁ (Bool.eq_false_iff.mpr fun hdiv => ?_) hfloor
  obtain ⟨q, hq, hdvd⟩ := (trialDivides_iff h₁).mp hdiv
  exact hno q hq hdvd

/-! ## Step 4: the selected row (R114, R115) -/

theorem selectRow_eq_some_iff (t : List WitnessRow) (p : Word) (r : WitnessRow) : selectRow t p = some r ↔
    ∃ k, t[k]? = some r ∧ p.toNat < r.bound ∧
      ∀ (j : Nat) (r' : WitnessRow), j < k → t[j]? = some r' → ¬ p.toNat < r'.bound := by
  simp only [selectRow, List.find?_eq_some_iff_getElem, decide_eq_true_eq, Bool.not_eq_true',
    decide_eq_false_iff_not, List.getElem?_eq_some_iff]
  constructor
  · rintro ⟨hserves, k, hk, rfl, hleast⟩
    refine ⟨k, ⟨hk, rfl⟩, hserves, ?_⟩
    rintro j _ hj ⟨_, rfl⟩
    exact hleast j hj
  · rintro ⟨k, ⟨hk, rfl⟩, hserves, hleast⟩
    exact ⟨hserves, k, hk, rfl, fun j hj => hleast j _ hj ⟨hj.trans hk, rfl⟩⟩

theorem selectRow_eq_none_iff (t : List WitnessRow) (p : Word) :
    selectRow t p = none ↔ ∀ r ∈ t, r.bound ≤ p.toNat := by
  simp [selectRow]

theorem mem_of_selectRow {t : List WitnessRow} {p : Word} {r : WitnessRow} (h : selectRow t p = some r) : r ∈ t :=
  List.mem_of_find?_eq_some h

/-- With strictly increasing bounds `TOP_BOUND` is the largest (R9, R41). -/
theorem bound_le_topBound : ∀ {t : List WitnessRow} {r : WitnessRow}, boundsIncrease t = true → r ∈ t →
    r.bound ≤ topBound t
  | [r], _, _, hmem => by
    rw [List.mem_singleton.mp hmem]
    exact Nat.le_refl _
  | r :: r' :: rest, _, hinc, hmem => by
    obtain ⟨hlt, hinc'⟩ : r.bound < r'.bound ∧ boundsIncrease (r' :: rest) = true := by
      simpa [boundsIncrease] using hinc
    have htop : topBound (r :: r' :: rest) = topBound (r' :: rest) := by
      rw [topBound, topBound, List.getLast?_cons_cons]
    rw [htop]
    rcases List.mem_cons.mp hmem with rfl | htail
    · exact hlt.le.trans (bound_le_topBound hinc' List.mem_cons_self)
    · exact bound_le_topBound hinc' htail

theorem Params.boundsIncrease_of_wf {cfg : Params} (h : cfg.wf = true) : boundsIncrease cfg.witnessTable = true := by
  simp only [Params.wf, Bool.and_eq_true] at h
  exact h.2

theorem witnessStages_of_selectRow {cfg : Params} {p : Word} {r : WitnessRow}
    (h : selectRow cfg.witnessTable p = some r) : witnessStages cfg p = strongTest cfg.hasWideMul p r.witnesses := by
  rw [witnessStages, h]

/-- No row serves a number from `TOP_BOUND` on (R115). -/
theorem witnessStages_of_topBound_le {cfg : Params} {p : Word} (hwf : cfg.wf = true)
    (h : topBound cfg.witnessTable ≤ p.toNat) : witnessStages cfg p = .outOfRange := by
  have hnone : selectRow cfg.witnessTable p = none := (selectRow_eq_none_iff _ _).mpr fun _ hr =>
    (bound_le_topBound (Params.boundsIncrease_of_wf hwf) hr).trans h
  rw [witnessStages, hnone]

/-! ## Step 5: the decomposition (R116) -/

theorem decompose_sub_one {p : Word} (hp : 2 ≤ p.toNat) : (decompose 64 (p - 1) 0).1.toNat % 2 = 1 ∧
    (decompose 64 (p - 1) 0).1.toNat * 2 ^ (decompose 64 (p - 1) 0).2 = p.toNat - 1 := by
  have hsub : (p - 1).toNat = p.toNat - 1 := sub_one_toNat (ne_zero_of_toNat_pos (by omega))
  have hne : p - 1 ≠ 0 := ne_zero_of_toNat_pos (by omega)
  obtain ⟨hodd, -, hprod⟩ := decompose_spec 64 (p - 1) 0 hne (p - 1).isLt
  rw [Nat.sub_zero, hsub] at hprod
  exact ⟨hodd, hprod⟩

/-- An even number of 64 bits is an odd part times a power of two that is at least 2 and below `2 ^ 64`. -/
theorem odd_part_bounds {n d s : Nat} (hn : n < 2 ^ 64) (heven : n % 2 = 0) (hodd : d % 2 = 1)
    (hprod : d * 2 ^ s = n) : 1 ≤ s ∧ s ≤ 63 ∧ 1 ≤ d ∧ d < 2 ^ 63 := by
  have hd : 1 ≤ d := by omega
  have hs : 1 ≤ s := by
    by_contra h0
    have hs0 : s = 0 := by omega
    rw [hs0, pow_zero, mul_one] at hprod
    omega
  have hpow : 2 ^ s < 2 ^ 64 :=
    calc 2 ^ s ≤ d * 2 ^ s := Nat.le_mul_of_pos_left _ hd
      _ < 2 ^ 64 := by omega
  have hs64 : s < 64 := (Nat.pow_lt_pow_iff_right Nat.one_lt_two).mp hpow
  have htwice : d * 2 ≤ d * 2 ^ s := Nat.mul_le_mul_left _ (Nat.le_pow hs)
  exact ⟨hs, by omega, hd, by omega⟩

/-! ## Step 6: the test of one witness (R117) -/

section StrongTest

variable (wide : Bool) {p : Word} (hp : 3 ≤ p.toNat)
include hp

/-- Stopping at 1 loses nothing: from there every square is 1 again, and never `p - 1`. -/
theorem squareLoop_eq_true_iff (n : Nat) (x : Word) : squareLoop wide p n x = true ↔
    ∃ i, i < n ∧ x.toNat ^ 2 ^ (i + 1) % p.toNat = p.toNat - 1 := by
  have hp0 : p ≠ 0 := ne_zero_of_toNat_pos (by omega)
  induction n generalizing x with
  | zero => simp [squareLoop]
  | succ n ih =>
    have hsquare : (mulmod wide x x p).toNat = x.toNat ^ 2 % p.toNat := by rw [mulmod_toNat wide hp0, pow_two]
    have hpow (i : Nat) : x.toNat ^ 2 ^ (i + 1 + 1) % p.toNat =
        (mulmod wide x x p).toNat ^ 2 ^ (i + 1) % p.toNat := by
      rw [hsquare, ← Nat.pow_mod, ← pow_mul, ← pow_succ']
    rw [Nat.exists_lt_succ_left, Nat.zero_add, pow_one, ← hsquare]
    simp only [hpow, squareLoop]
    generalize mulmod wide x x p = y at ih ⊢
    split
    next hone =>
      have hy : y.toNat = 1 := congrArg BitVec.toNat hone
      have hmod : 1 % p.toNat = 1 := Nat.mod_eq_of_lt (by omega)
      have hne : 1 ≠ p.toNat - 1 := by omega
      simp [hy, hmod, hne]
    next =>
      have hminus : y = p - 1 ↔ y.toNat = p.toNat - 1 := by rw [← BitVec.toNat_inj, sub_one_toNat hp0]
      by_cases hy : y.toNat = p.toNat - 1
      · simp only [hminus, hy, if_true, true_or]
      · simp only [hminus, hy, if_false, false_or, ih]

/-- A witness is satisfied exactly by the strong-pseudoprime condition (R117, R118). -/
theorem satisfied_eq_true_iff (d v : Word) {s : Nat} (hs : 1 ≤ s) : satisfied wide p d s v = true ↔
    (v.toNat ^ d.toNat % p.toNat = 1 ∨
      ∃ i, i < s ∧ v.toNat ^ (d.toNat * 2 ^ i) % p.toNat = p.toNat - 1) := by
  have hp0 : p ≠ 0 := ne_zero_of_toNat_pos (by omega)
  obtain ⟨n, rfl⟩ : ∃ n, s = n + 1 := ⟨s - 1, by omega⟩
  have hone : (1 : Word).toNat = 1 := rfl
  have hfirst (y : Word) : powmod wide v d p = y ↔ v.toNat ^ d.toNat % p.toNat = y.toNat := powmod_eq_iff wide hp0
  have hlater (i : Nat) : (powmod wide v d p).toNat ^ 2 ^ (i + 1) % p.toNat =
      v.toNat ^ (d.toNat * 2 ^ (i + 1)) % p.toNat := by
    rw [powmod_toNat wide hp0, ← Nat.pow_mod, ← pow_mul]
  simp only [satisfied, Nat.add_sub_cancel, Bool.if_true_left, Bool.or_eq_true, decide_eq_true_eq,
    squareLoop_eq_true_iff wide hp, hlater, hfirst, hone, sub_one_toNat hp0, Nat.exists_lt_succ_left, pow_zero,
    mul_one, or_assoc]

end StrongTest

/-! ## Under the assumption on the table (R120) -/

theorem isprime_decides_of_valid {cfg : Params} {p : Word} (hvalid : WitnessTableValid cfg)
    (hlt : p.toNat < topBound cfg.witnessTable) : (isprime cfg p).Decides p.toNat := by
  by_cases hu : Undecided p
  · rw [isprime_of_undecided cfg hu]
    obtain ⟨hge, hno⟩ := hu
    obtain ⟨hprime, hcomp⟩ := hvalid p hge hlt hno
    by_cases hp : p.toNat.Prime
    · rw [hprime hp]
      exact Verdict.decides_prime hp
    · rw [hcomp hp]
      exact Verdict.decides_notPrime hp
  · exact isprime_decides_of_not_undecided cfg hu

/-! ## The default table (R51, R115, R120) -/

/-- Every witness of the default table is above 0 and below 323, so no undecided prime divides it. -/
theorem defaultTable_witness_bounds : ∀ r ∈ defaultTable, ∀ v ∈ r.witnesses, 0 < v.toNat ∧ v.toNat < 323 := by
  simp [defaultTable]

/-- The last row serves every word. -/
theorem selectRow_defaultTable_ne_none (p : Word) : selectRow defaultTable p ≠ none := by
  intro hnone
  obtain ⟨r, hr, hbound⟩ : ∃ r ∈ defaultTable, r.bound = 2 ^ 64 := by simp [defaultTable]
  have hle : r.bound ≤ p.toNat := (selectRow_eq_none_iff _ _).mp hnone r hr
  have hlt := p.isLt
  omega

theorem strongTest_ne_outOfRange (wide : Bool) (p : Word) (ws : List Word) : strongTest wide p ws ≠ .outOfRange := by
  simp only [strongTest]
  split <;> decide

section DefaultTable

variable {cfg : Params} (htable : cfg.witnessTable = defaultTable)
include htable

theorem witnessStages_eq_strongTest_of_defaultTable (p : Word) : ∃ r ∈ defaultTable,
    witnessStages cfg p = strongTest cfg.hasWideMul p r.witnesses := by
  obtain ⟨r, hr⟩ := Option.ne_none_iff_exists'.mp (selectRow_defaultTable_ne_none p)
  exact ⟨r, mem_of_selectRow hr, witnessStages_of_selectRow (by rw [htable, hr])⟩

theorem isprime_ne_outOfRange_of_defaultTable (p : Word) : isprime cfg p ≠ .outOfRange := by
  by_cases hu : Undecided p
  · obtain ⟨r, -, hstages⟩ := witnessStages_eq_strongTest_of_defaultTable htable p
    rw [isprime_of_undecided cfg hu, hstages]
    exact strongTest_ne_outOfRange _ p r.witnesses
  · exact (isprime_decides_of_not_undecided cfg hu).ne_outOfRange

/-- Half (a) of R120, for the default table. -/
theorem isprime_of_prime_of_defaultTable {p : Word} (hp : p.toNat.Prime) : isprime cfg p = .prime := by
  by_cases hu : Undecided p
  · obtain ⟨r, hr, hstages⟩ := witnessStages_eq_strongTest_of_defaultTable htable p
    rw [isprime_of_undecided cfg hu, hstages]
    obtain ⟨hge, -⟩ := hu
    refine strongTest_of_prime _ r.witnesses hp (by omega) fun v hv hdvd => ?_
    obtain ⟨hpos, hlt⟩ := defaultTable_witness_bounds r hr v hv
    have hle : p.toNat ≤ v.toNat := Nat.le_of_dvd hpos hdvd
    omega
  · exact (isprime_decides_of_not_undecided cfg hu).1.mpr hp

end DefaultTable

end Sys2Proof.Machine

/-! ## The obligations -/

open Sys2Proof Sys2Proof.Machine

/-- Settles O32: what the three premises describe is not left to the witnesses. -/
theorem firstThreeStepsAreCorrect : Obligations.FirstThreeStepsAreCorrect := by
  intro cfg p hcases
  refine isprime_decides_of_not_undecided cfg ?_
  rintro ⟨hge, hno⟩
  rcases hcases with hlt | ⟨q, hq, hdvd⟩ | hlt
  · omega
  · exact hno q hq hdvd
  · omega

/-- Settles O33: the search returns the first row that serves `p`. -/
theorem leastServingRowIsSelected : Obligations.LeastServingRowIsSelected := fun t p =>
  ⟨selectRow_eq_some_iff t p, selectRow_eq_none_iff t p, fun _ hr => (pmax_serves hr p).symm⟩

/-- Settles O34: the shifts keep the product, and `p - 1` is even and has 64 bits, which bounds both parts. -/
theorem decompositionIsExact : Obligations.DecompositionIsExact := by
  intro p hp hpodd d s
  have hlt := p.isLt
  obtain ⟨hodd, hprod⟩ := decompose_sub_one (p := p) (by omega)
  exact ⟨hodd, hprod, odd_part_bounds (by omega) (by omega) hodd hprod⟩

/-- Settles O35, by the squaring loop: stopping early at 1 changes no outcome. -/
theorem witnessTestIsTheStrongTest : Obligations.WitnessTestIsTheStrongTest := fun wide _ d v _ hp hs =>
  satisfied_eq_true_iff wide hp d v hs

/-- Settles O36: the verdict is not out of range, and for a prime it is PRIME. -/
theorem primesAreNeverRejected : Obligations.PrimesAreNeverRejected := by
  intro p b m s htable
  rw [exec_isprime]
  cases hv : isprime s.cfg p with
  | prime => exact ⟨1, rfl, .inr rfl, fun _ => rfl⟩
  | notPrime =>
    refine ⟨0, rfl, .inl rfl, fun hp => ?_⟩
    rw [isprime_of_prime_of_defaultTable htable hp] at hv
    cases hv
  | outOfRange => exact absurd hv (isprime_ne_outOfRange_of_defaultTable htable p)

/-- Settles O37: steps 1 to 3 decide on their own; the numbers they leave are decided by the assumption below
`TOP_BOUND` and out of range from there on. -/
theorem validTableDecidesPrimality : Obligations.ValidTableDecidesPrimality := by
  intro cfg hwf hvalid p
  refine ⟨fun hlt => ?_, fun hge => ?_⟩
  · exact isprime_decides_of_valid hvalid hlt
  · by_cases hu : Undecided p
    · exact .inl ((isprime_of_undecided cfg hu).trans (witnessStages_of_topBound_le hwf hge))
    · exact .inr (isprime_decides_of_not_undecided cfg hu).correct

/-- Settles O39, each value by the step that answers it. -/
theorem isprimeCornerCases : Obligations.IsprimeCornerCases := by
  refine ⟨⟨?_, ?_, ?_⟩, ⟨?_, ?_⟩, ⟨?_, ?_, ?_, ?_⟩, ⟨?_, ?_⟩, ?_, ?_⟩
  · exact (isprime_of_lt_trivialLimit _ (by decide)).trans (by decide)
  · exact (isprime_of_lt_trivialLimit _ (by decide)).trans (by decide)
  · exact (isprime_of_lt_trivialLimit _ (by decide)).trans (by decide)
  · exact (isprime_of_lt_trivialLimit _ (by decide)).trans (by decide)
  · exact isprime_of_lt_smallFloor _ (by decide) (by decide) (by decide)
  · exact isprime_of_trialDivides _ (by decide) (by decide)
  · exact isprime_of_trialDivides _ (by decide) (by decide)
  · exact isprime_of_prime_of_defaultTable rfl (show Nat.Prime 331 by norm_num)
  · decide +kernel
  · decide +kernel
  · decide +kernel
  · decide +kernel
  · exact isprime_of_trialDivides _ (by decide) (by decide)
end

section
/-! PROOF of the family '60_exceptions.md': when the verdict is out of range, the answer to the reserved operation code,
and the result 0 that every fault carries. -/

namespace Sys2Proof.Machine

/-! ## When the verdict is out of range (R115, R144) -/

/-- A number below `TOP_BOUND` is served by the last row, if by no other. -/
theorem exists_selectRow_of_lt_topBound {t : List WitnessRow} {p : Word} (h : p.toNat < topBound t) :
    ∃ r, selectRow t p = some r := by
  refine Option.ne_none_iff_exists'.mp fun hnone => ?_
  cases hlast : t.getLast? with
  | none => simp [topBound, hlast] at h
  | some r =>
    have hbound : p.toNat < r.bound := by simpa [topBound, hlast] using h
    have hle : r.bound ≤ p.toNat := (selectRow_eq_none_iff t p).mp hnone r (List.mem_of_getLast? hlast)
    omega

theorem isprime_eq_outOfRange_iff {cfg : Params} (p : Word) (hwf : cfg.wf = true) :
    isprime cfg p = .outOfRange ↔ topBound cfg.witnessTable ≤ p.toNat ∧ Undecided p := by
  refine ⟨fun hv => ?_, fun ⟨hge, hu⟩ => (isprime_of_undecided cfg hu).trans (witnessStages_of_topBound_le hwf hge)⟩
  have hu : Undecided p := by
    by_contra hdecided
    exact (isprime_decides_of_not_undecided cfg hdecided).ne_outOfRange hv
  refine ⟨le_of_not_gt fun hlt => ?_, hu⟩
  obtain ⟨r, hr⟩ := exists_selectRow_of_lt_topBound hlt
  rw [isprime_of_undecided cfg hu, witnessStages_of_selectRow hr] at hv
  exact strongTest_ne_outOfRange _ p r.witnesses hv

/-! ## The answers that are not OK (R143, R146) -/

/-- The command in the latch with the reserved code is owed `ERR_ILLEGAL_OP` and 0. -/
theorem State.answer_of_op_three {s : State} (h : s.op = 3) : s.answer = (2, 0) := by
  rw [State.answer, h, execPair_reserved]

/-- The one verdict that is not answered with status OK is answered with result 0. -/
theorem Verdict.answer_result_eq_zero {v : Verdict} (h : v.answer.1.code ≠ 0) : v.answer.2 = 0 := by
  cases v with
  | prime => exact absurd rfl h
  | notPrime => rfl
  | outOfRange => rfl

end Sys2Proof.Machine

/-! ## The obligations -/

open Sys2Proof Sys2Proof.Machine

/-- Settles O38: the condition is that of the verdict out of range, and the other two verdicts are answered with
status OK; the last bound of the default table is `2 ^ 64`. -/
theorem rangeFaultExactlyBeyondTheTable : Obligations.RangeFaultExactlyBeyondTheTable := by
  refine ⟨fun p b m s hwf => ⟨fun hbeyond => ?_, fun hnot => ?_⟩, fun p => p.isLt⟩
  · rw [exec_isprime, (isprime_eq_outOfRange_iff p hwf).mpr hbeyond]
    rfl
  · rw [exec_isprime]
    cases hv : isprime s.cfg p with
    | prime => exact ⟨1, rfl, .inr rfl⟩
    | notPrime => exact ⟨0, rfl, .inl rfl⟩
    | outOfRange => exact absurd ((isprime_eq_outOfRange_iff p hwf).mp hv) hnot

/-- Settles O9: the step is COMPLETE, and the latch is owed the answer to the reserved code. -/
theorem reservedCodeIsAnswered : Obligations.ReservedCodeIsAnswered := by
  intro s hp hb hr hop
  rw [step_of_complete hr hp hb, State.answer_of_op_three hop]

/-- Settles O52, operation by operation: with a modulus that is not 0 the status is OK, and ISPRIME faults only out of
range. -/
theorem faultsCarryResultZero : Obligations.FaultsCarryResultZero := by
  intro cfg op a b m hstatus
  rcases op_cases op with rfl | rfl | rfl | rfl
  · by_cases hm : m = 0
    · rw [hm, execPair_mulmod_zero]
    · rw [execPair_mulmod_of_ne_zero _ _ _ hm] at hstatus
      exact absurd rfl hstatus
  · by_cases hm : m = 0
    · rw [hm, execPair_powmod_zero]
    · rw [execPair_powmod_of_ne_zero _ _ _ hm] at hstatus
      exact absurd rfl hstatus
  · rw [execPair_isprime] at hstatus ⊢
    exact Verdict.answer_result_eq_zero hstatus
  · rw [execPair_reserved]
end

section
/-! PROOF of the family '70_reset_and_hazards.md': the row of a reset edge, the run of a command to its response, and
the order of the observable events, edge by edge. -/

namespace Sys2Proof.Machine

/-! ## Two more rows of the table of R32, as equations of `step` -/

theorem step_of_reset {s : State} (hr : s.nextEdge.rst = true) : step s = .next s.popEdge.resetEdge :=
  takeEdge_of_rst s.popEdge hr

theorem step_of_working {s : State} (hr : s.nextEdge.rst = false) (hp : s.phase = .busy) (hb : s.busyLeft ≠ 0) :
    step s = .next s.popEdge.workOn :=
  takeEdge_of_busy_working (s := s.popEdge) hr hp hb

/-! ## The edges left to a command in BUSY (R166) -/

/-- The first listed edge is the coming one; an edge beyond the list is quiet (log 5). -/
theorem State.nextEdge_rst_eq_false {s : State} {n : Nat} (h : ∀ e ∈ s.edges.take (n + 1), e.rst = false) :
    s.nextEdge.rst = false := by
  unfold State.nextEdge
  cases hs : s.edges with
  | nil => rfl
  | cons e es => exact h e (by simp [hs])

/-- The coming edge being past, the edges after it are the first of the list. -/
theorem State.popEdge_edges_rst_eq_false {s : State} {n : Nat} (h : ∀ e ∈ s.edges.take (n + 1), e.rst = false) :
    ∀ e ∈ s.popEdge.edges.take n, e.rst = false := by
  intro e he
  rw [State.popEdge_edges, ← List.drop_one, List.take_drop, Nat.add_comm] at he
  exact h e (List.mem_of_mem_drop he)

/-- While no edge has a reset, every waiting edge takes one from `busyLeft` and keeps what the answer depends on, and
COMPLETE comes when none is left. -/
theorem run_busy_responds (n : Nat) {s : State} (hp : s.phase = .busy) (hb : s.busyLeft = n)
    (hrst : ∀ e ∈ s.edges.take (n + 1), e.rst = false) :
    ∃ t, Sys2Proof.core.run (n + 1) s = .next t ∧ State.phase t = .resp ∧
      (State.rspStatus t, State.rspResult t) = s.answer ∧ State.latchCmd t = s.latchCmd ∧ State.cfg t = s.cfg := by
  have hr : s.nextEdge.rst = false := State.nextEdge_rst_eq_false hrst
  induction n generalizing s with
  | zero => exact ⟨_, run_of_step (M := Sys2Proof.core) 0 (step_of_complete hr hp hb), rfl, rfl, rfl, rfl⟩
  | succ n ih =>
    have hstep : step s = .next s.popEdge.workOn := step_of_working hr hp (by omega)
    have hleft : s.popEdge.workOn.busyLeft = n := by simp [hb]
    have hrst' : ∀ e ∈ s.popEdge.workOn.edges.take (n + 1), e.rst = false := State.popEdge_edges_rst_eq_false hrst
    obtain ⟨t, hrun, hresponds⟩ := ih (s := s.popEdge.workOn) hp hleft hrst' (State.nextEdge_rst_eq_false hrst')
    exact ⟨t, (run_of_step (M := Sys2Proof.core) (n + 1) hstep).trans hrun, hresponds⟩

/-! ## The observable event of each row of the table of R32 (R169) -/

theorem State.event_of_reset {s : State} (hr : s.nextEdge.rst = true) : s.event = some .reset := by
  simp [State.event, hr]

section Events

variable {s : State} (hr : s.nextEdge.rst = false)
include hr

theorem State.event_of_idle (hp : s.phase = .idle) :
    s.event = if s.nextEdge.cmdValid then some (.accepted s.nextEdge.cmd) else none := by
  simp [State.event, hr, hp]

theorem State.event_of_busy (hp : s.phase = .busy) : s.event = none := by
  simp [State.event, hr, hp]

theorem State.event_of_resp (hp : s.phase = .resp) :
    s.event = if s.nextEdge.rspReady then some (.delivered s.rspStatus s.rspResult) else none := by
  simp [State.event, hr, hp]

end Events

/-! ## The outstanding command (R31) -/

theorem State.outstanding_of_idle {s : State} (hp : s.phase = .idle) : s.outstanding = none := by
  simp [State.outstanding, hp]

theorem State.outstanding_of_not_idle {s : State} (hp : s.phase ≠ .idle) : s.outstanding = some s.latchCmd := by
  cases h : s.phase with
  | idle => exact absurd h hp
  | busy => simp [State.outstanding, h]
  | resp => simp [State.outstanding, h]

/-! ## The rule of the host interface, edge by edge (R31, R161, R169) -/

/-- A reset is allowed at any time and drops the command in the block (R161). -/
theorem answeredInOrder_reset {cfg : Params} {es : List Event} (o : Option Cmd) (h : AnsweredInOrder cfg none es) :
    AnsweredInOrder cfg o (.reset :: es) := by
  cases o <;> exact h

/-- One edge keeps the rule: its event, if there is one, is one that the outstanding command allows, and the next
state waits for what that event leaves outstanding. -/
theorem answeredInOrder_of_step {s t : State} {es : List Event} (hinv : s.RespInv) (hst : step s = .next t)
    (h : AnsweredInOrder s.cfg t.outstanding es) : AnsweredInOrder s.cfg s.outstanding (s.event.toList ++ es) := by
  rcases step_cases hst with ⟨hr, rfl⟩ | ⟨hr, hp, hv, rfl⟩ | ⟨hr, hp, hv, rfl⟩ | ⟨hr, hp, -, rfl⟩ | ⟨hr, hp, -, rfl⟩ |
    ⟨hr, hp, hd, rfl⟩ | ⟨hr, hp, hd, rfl⟩
  · rw [State.event_of_reset hr]
    exact answeredInOrder_reset s.outstanding h
  · rw [State.event_of_idle hr hp, hv, State.outstanding_of_idle hp]
    exact h
  · rw [State.event_of_idle hr hp, hv]
    exact h
  · rw [State.event_of_busy hr hp, State.outstanding_of_not_idle (by simp [hp])]
    exact h
  · rw [State.event_of_busy hr hp]
    exact h
  · have hanswer : (s.rspStatus, s.rspResult) = execWord s.cfg s.latchCmd :=
      (hinv hp).trans s.answer_eq_execWord
    rw [State.event_of_resp hr hp, hd, State.outstanding_of_not_idle (by simp [hp])]
    exact ⟨hanswer, h⟩
  · rw [State.event_of_resp hr hp, hd]
    exact h

/-- The rule holds of the events of any number of edges: each edge keeps it and the invariant of the response. -/
theorem State.RespInv.answeredInOrder (n : Nat) {s : State} (hinv : s.RespInv) :
    AnsweredInOrder s.cfg s.outstanding (trace n s) := by
  induction n generalizing s with
  | zero => simp [trace, AnsweredInOrder]
  | succ n ih =>
    obtain ⟨t, hst⟩ := step_next s
    have hrest : AnsweredInOrder s.cfg t.outstanding (trace n t) := step_keeps_cfg hst ▸ ih (hinv.step hst)
    rw [trace_succ n hst]
    exact answeredInOrder_of_step hinv hst hrest

end Sys2Proof.Machine

/-! ## The obligations -/

open Sys2Proof Sys2Proof.Machine

/-- Settles O12, by the row of R32 for a reset edge and the fields of `State.resetEdge`. -/
theorem resetHasPriority : Obligations.ResetHasPriority :=
  fun _ hr => ⟨_, step_of_reset hr, rfl, rfl, rfl, rfl, rfl⟩

/-- Settles O50, by induction on the edges left; the edges need not even be listed, since a host whose list is used
up applies no reset. -/
theorem everyCommandCompletes : Obligations.EveryCommandCompletes :=
  fun s hp _ hrst => run_busy_responds s.busyLeft hp rfl hrst

/-- Settles O48: every edge keeps the rule of the host interface, by induction on the number of edges over the
invariant of the response (O46). -/
theorem everyResponseAnswersItsCommand : Obligations.EveryResponseAnswersItsCommand :=
  fun n _ hinv => hinv.answeredInOrder n
end

section
/-! PROOF of the family 'other': the frame of a step for the working registers (log 6, log 7). -/

namespace Sys2Proof.Machine

/-- Only ACCEPT and a waiting edge in BUSY write the working registers (log 6). -/
theorem step_keeps_work {s t : State} (h : step s = .next t) (hr : s.nextEdge.rst = false)
    (hna : s.phase ≠ .idle ∨ s.nextEdge.cmdValid = false) (hnw : s.phase ≠ .busy ∨ s.busyLeft = 0) :
    t.work = s.work := by
  rcases step_cases h with ⟨hr', -⟩ | ⟨-, hp, hv, -⟩ | ⟨-, -, -, rfl⟩ | ⟨-, -, -, rfl⟩ | ⟨-, hp, hb, -⟩ |
    ⟨-, -, -, rfl⟩ | ⟨-, -, -, rfl⟩
  case inl => simp [hr] at hr'
  case inr.inl => simp [hp, hv] at hna
  case inr.inr.inr.inr.inl => simp [hp, hb] at hnw
  all_goals rfl

end Sys2Proof.Machine

/-! ## The obligation -/

open Sys2Proof Sys2Proof.Machine

/-- Settles O16: a step that is ACCEPT sets the sequencer by the row ACCEPT of R32, and any other step is under the
frame for the working registers. -/
theorem workingRegistersMoveOnlyInBusy : Obligations.WorkingRegistersMoveOnlyInBusy := by
  intro s t h hr hnw
  by_cases hacc : s.phase = .idle ∧ s.nextEdge.cmdValid = true
  · obtain ⟨hp, hv⟩ := hacc
    rw [step_of_accept hr hp hv] at h
    cases h
    exact .inr ⟨hp, rfl, rfl⟩
  · have hna : s.phase ≠ .idle ∨ s.nextEdge.cmdValid = false :=
      (not_and_or.mp hacc).imp_right Bool.eq_false_of_not_eq_true
    exact .inl (step_keeps_work h hr hna hnw)
end
